-- ==== Sys2Proof/Word.lean ====
section
/-! DEFINITION. The word types of the SAP-1 CORE: bytes, nibbles, and the 16-byte launch image. -/

namespace Sys2Proof

/-- A register, memory cell or instruction: 8 bits, unsigned (00_scope.md R5). -/
abbrev Byte := BitVec 8

/-- A 4-bit field of an instruction byte: the opcode or the operand (00_scope.md R7). -/
abbrev Nibble := BitVec 4

/-- A memory address: 4 bits, so every address names one of the 16 cells (00_scope.md R6). -/
abbrev Addr := BitVec 4

/-- The launch input `IMAGE`: exactly 16 bytes, cell 0 first (00_scope.md R10). -/
abbrev Image := Vector Byte 16

end Sys2Proof
end

