-- ==== Sys2Proof/Machine/State.lean ====
section
/-! DEFINITION. The architectural state of the SAP-1 CORE (10_state.md R29), its reset, and the reasons a step can stop. -/

namespace Sys2Proof.Machine

/-- The exceptions of the core: SubOverflow is the only one (60_exceptions.md R96, R97). -/
inductive ExceptionCause where
  /-- raised by SUB when `A + MEM[n] >= 256` and `SUB_OVERFLOW_POLICY = fault` (42_arithmetic.md R84) -/
  | subOverflow
deriving DecidableEq, Repr

/-- RUN, the run status (10_state.md R24). `halted` and `faulted` are terminal. -/
inductive RunStatus where
  | running
  | halted
  | faulted (cause : ExceptionCause)
deriving DecidableEq, Repr

/-- MEM as (address, byte) pairs in one canonical form, `Memory.wf` in Machine/Ops.lean (20_memory.md R35). -/
abbrev Memory := List Host.Cell

/-- The complete architectural state, the tuple of 10_state.md R29. -/
structure State where
  /-- A, the accumulator (R14) -/
  a : Byte
  /-- B, the operand register (R15) -/
  b : Byte
  /-- PC, stored in an 8-bit field whose value is always in 0..15 in a run (R16, 90_conflicts.md C8) -/
  pc : Byte
  /-- IR, written by nothing and read by nothing (R18) -/
  ir : Byte
  /-- the ALU latch, written by nothing and read by nothing (R19) -/
  alu : Byte
  /-- OUT, the output register (R20) -/
  out : Byte
  /-- CF, the sticky carry flag (R21, R23) -/
  cf : Bool
  /-- ZF, the sticky zero flag (R22, R23) -/
  zf : Bool
  /-- MEM, the 16 cells (R27) -/
  mem : Memory
  /-- RUN (R24) -/
  run : RunStatus
deriving DecidableEq, Repr

/-- Faults outside the machine's own state: none. The core's one exception, SubOverflow, is a status of RUN that a
NEXT state holds (10_state.md R24, 42_arithmetic.md R85), so no step raises a `Fault`. DEDUCED, safe: log entry 4. -/
inductive Fault where
deriving DecidableEq, Repr

/-- Why the model declines to answer for a state or an instruction. -/
inductive Refusal where
  /-- Raised by an arm of `exec` for an instruction with no meaning yet; no arm does. Safe: nothing is claimed. -/
  | notModelled (mnemonic : String)
  /-- Raised by a running step from a state with PC > 15: no run reaches one (10_state.md R16), and the spec has a
  model refuse it (93_implementation_defined.md I7). Safe: nothing is claimed of such a step. Log entry 6. -/
  | pcOutOfRange (pc : Byte)
deriving DecidableEq, Repr

/-- The machine right after construction: "all registers/flags at zero" and RUN running (70_reset_and_hazards.md
R110). MEM is `IMAGE`, which the host supplies; here it is the all-zero image, with nothing listed (DESIGN CHOICE,
unsafe: log entry 2). `State.construct` in Machine/Construct.lean takes any image. -/
def State.reset : State where
  a := 0
  b := 0
  pc := 0
  ir := 0
  alu := 0
  out := 0
  cf := false
  zf := false
  mem := []
  run := .running

end Sys2Proof.Machine
end

