-- ==== Sys2Proof/Machine/Ops.lean ====
section
/-! DEFINITION. The named operations over memory and registers, raising the one exception, and fetch and advance. -/

namespace Sys2Proof.Machine

/-! ### Memory (20_memory.md) -/

/-- What an address the list does not name reads as: 0x00 (DESIGN CHOICE, unsafe: log entry 2). -/
def unlistedByte : Byte := 0

/-- The byte at an address. -/
def Memory.read : Memory → Nat → Byte
  | [], _ => unlistedByte
  | (k, v) :: m, a => if k = a then v else Memory.read m a

/-- Put a cell before the first cell with a greater address. -/
def Memory.insertCell (a : Nat) (v : Byte) : Memory → Memory
  | [] => [(a, v)]
  | (k, w) :: m => if a < k then (a, v) :: (k, w) :: m else (k, w) :: Memory.insertCell a v m

/-- Drop every cell at an address. -/
def Memory.erase (a : Nat) : Memory → Memory
  | [] => []
  | (k, w) :: m => if k = a then Memory.erase a m else (k, w) :: Memory.erase a m

/-- Set the byte at an address, keeping the canonical form: writing what an unlisted address reads as removes the
cell. -/
def Memory.write (m : Memory) (a : Nat) (v : Byte) : Memory :=
  if v = unlistedByte then m.erase a else (m.erase a).insertCell a v

/-- The canonical form from address `lo` up: addresses strictly rising and below 16, no byte equal to
`unlistedByte`. -/
def Memory.wfFrom (lo : Nat) : Memory → Bool
  | [] => true
  | (k, v) :: m => decide (lo ≤ k) && decide (k < 16) && decide (v ≠ unlistedByte) && Memory.wfFrom (k + 1) m

/-- The canonical form of memory. Two canonical memories that read alike are equal. -/
def Memory.wf (m : Memory) : Bool := m.wfFrom 0

/-- The cells that hold the given bytes at consecutive addresses from `a` up, in canonical form. -/
def Memory.ofBytes : Nat → List Byte → Memory
  | _, [] => []
  | a, v :: vs => if v = unlistedByte then Memory.ofBytes (a + 1) vs else (a, v) :: Memory.ofBytes (a + 1) vs

/-! ### Registers and memory of the core -/

def State.setA (s : State) (v : Byte) : State := { s with a := v }
def State.setB (s : State) (v : Byte) : State := { s with b := v }
def State.setPc (s : State) (v : Byte) : State := { s with pc := v }
def State.setOut (s : State) (v : Byte) : State := { s with out := v }
def State.setCf (s : State) (v : Bool) : State := { s with cf := v }
def State.setZf (s : State) (v : Bool) : State := { s with zf := v }
def State.setMem (s : State) (m : Memory) : State := { s with mem := m }
def State.setRun (s : State) (r : RunStatus) : State := { s with run := r }

/-- `MemRead(addr, 1)` (20_memory.md R37). -/
def State.memRead (s : State) (a : Addr) : Byte := s.mem.read a.toNat

/-- `MemWrite(addr, 1, v)` (20_memory.md R37). -/
def State.memWrite (s : State) (a : Addr) (v : Byte) : State := s.setMem (s.mem.write a.toNat v)

/-! ### Fetch and advance (40_cycle_engine.md) -/

/-- The byte at `MEM[PC]` (R63); none where PC is above 15 and names no cell (93_implementation_defined.md I7). -/
def State.fetch (s : State) : Option Byte :=
  if s.pc.toNat ≤ 15 then some (s.memRead (s.pc.setWidth 4)) else none

/-- PC + 1, or 0 where that exceeds 15 (R64). -/
def nextPc (pc : Byte) : Byte := if pc.toNat + 1 > 15 then 0 else pc + 1

/-- The advance, after the fetch and before execute (R64). -/
def State.advancePc (s : State) : State := s.setPc (nextPc s.pc)

/-! ### Taking an exception (60_exceptions.md) -/

/-- `raise`: the instruction ends and RUN becomes Faulted with the cause (00_scope.md R11, 42_arithmetic.md R85). No
control is transferred and nothing is saved: there is no vector and no saved register (60_exceptions.md R99). There is
no return from it: only a new construction leaves the status (R100). -/
def State.raiseException (s : State) (cause : ExceptionCause) : State := s.setRun (.faulted cause)

/-- The address of the instruction that raised, `(PC + 15) mod 16` with PC already advanced (60_exceptions.md R96).
No field stores it. -/
def State.raisedAddress (s : State) : Nat := (s.pc.toNat + 15) % 16

end Sys2Proof.Machine
end

