-- ==== Sys2Proof/Syntax.lean ====
section
/-! DEFINITION. The instructions: one constructor per row of spec/opcode_table.json. -/

namespace Sys2Proof

/-- The sixteen instructions of the opcode map (30_encoding.md R53). Each carries its 4-bit operand `n`. Where R52 says
the operand is ignored it is carried all the same, so that no bit of an instruction byte is lost
(DESIGN CHOICE, safe: log entry 8). -/
inductive Instr where
  /-- `0000nnnn`, operand ignored (R75) -/
  | nop (n : Nibble)
  /-- `0001nnnn`, operand an address (R77) -/
  | lda (n : Addr)
  /-- `0010nnnn`, operand an address (R82) -/
  | add (n : Addr)
  /-- `0011nnnn`, operand an address (R84) -/
  | sub (n : Addr)
  /-- `0100nnnn`, operand an address (R78) -/
  | sta (n : Addr)
  /-- `0101nnnn`, operand a literal (R79) -/
  | ldi (n : Nibble)
  /-- `0110nnnn`, operand a jump target (R89) -/
  | jmp (n : Addr)
  /-- `0111nnnn`, operand a jump target (R90) -/
  | jc (n : Addr)
  /-- `1000nnnn`, operand a jump target (R91) -/
  | jz (n : Addr)
  /-- `1001nnnn`, unassigned, operand ignored (R76) -/
  | unassigned9 (n : Nibble)
  /-- `1010nnnn`, unassigned, operand ignored (R76) -/
  | unassignedA (n : Nibble)
  /-- `1011nnnn`, unassigned, operand ignored (R76) -/
  | unassignedB (n : Nibble)
  /-- `1100nnnn`, unassigned, operand ignored (R76) -/
  | unassignedC (n : Nibble)
  /-- `1101nnnn`, unassigned, operand ignored (R76) -/
  | unassignedD (n : Nibble)
  /-- `1110nnnn`, operand ignored (R80) -/
  | out (n : Nibble)
  /-- `1111nnnn`, operand ignored (R92) -/
  | hlt (n : Nibble)
deriving DecidableEq, Repr

end Sys2Proof
end

