-- ==== Sys2Proof/WellFormed.lean ====
section
/-! DEFINITION. The checks on what is given to the core from outside: instructions and the launch image. -/

namespace Sys2Proof

/-- Whether an instruction is one the core accepts. Every one is: the operand is "taken verbatim ... no validation"
(30_encoding.md R52) and no encoding is illegal (R56). What could be ill-formed, an operand of more than 4 bits, is
no term of `Instr`, so this check refuses nothing. -/
def Instr.wf : Instr → Bool
  | .nop _ => true
  | .lda _ => true
  | .add _ => true
  | .sub _ => true
  | .sta _ => true
  | .ldi _ => true
  | .jmp _ => true
  | .jc _ => true
  | .jz _ => true
  | .unassigned9 _ => true
  | .unassignedA _ => true
  | .unassignedB _ => true
  | .unassignedC _ => true
  | .unassignedD _ => true
  | .out _ => true
  | .hlt _ => true

/-- Whether raw bytes are a launch image: there are exactly 16 of them (00_scope.md R10). -/
def imageWf (bytes : List Byte) : Bool := bytes.length == 16

end Sys2Proof
end

