-- ==== Sys2Proof/Machine/Construct.lean ====
section
/-! DEFINITION. Construction of the core from an image (10_state.md R30), and placing a byte where the next step fetches. -/

namespace Sys2Proof.Machine

/-- Construction, which is reset and load: MEM is `IMAGE` and every other field is at its reset value (10_state.md R30,
70_reset_and_hazards.md R110). It is the only way out of a terminal status (R113). -/
def State.construct (image : Image) : State := State.reset.setMem (Memory.ofBytes 0 image.toList)

/-- Construction from raw bytes: refused unless there are exactly 16 (00_scope.md R10). -/
def State.constructFrom? (bytes : List Byte) : Option State :=
  if imageWf bytes then some (State.reset.setMem (Memory.ofBytes 0 bytes)) else none

/-- The state whose next step fetches and runs `v`: the byte is in the cell that PC names, PC is in 0..15 and RUN is
running. From a running state with PC in range only the cell changes. It stands for the host's load of an image and is
no move of the machine (DESIGN CHOICE: log entry 3). -/
def State.placeForFetch (s : State) (v : Byte) : State :=
  ((s.setPc (s.pc &&& 0x0F)).setRun .running).memWrite (s.pc.setWidth 4) v

end Sys2Proof.Machine
end

