-- ==== Sys2Proof/Decode.lean ====
section
/-! DEFINITION. The decoder, total on all 256 bytes, and after it the encoder (30_encoding.md). -/

namespace Sys2Proof

/-- `op = instr[7:4]` (30_encoding.md R51). -/
def opcodeField (b : Byte) : Nibble := b.extractLsb' 4 4

/-- `n = instr[3:0]` (30_encoding.md R51). -/
def operandField (b : Byte) : Nibble := b.extractLsb' 0 4

/-- The opcode map of 30_encoding.md R53, one arm per row, by the four bits of `op` from bit 7 of the byte down to
bit 4. There is no row left over: decoding rejects nothing (R56). -/
def instrOf (op n : Nibble) : Instr :=
  match op[3], op[2], op[1], op[0] with
  | false, false, false, false => .nop n
  | false, false, false, true => .lda n
  | false, false, true, false => .add n
  | false, false, true, true => .sub n
  | false, true, false, false => .sta n
  | false, true, false, true => .ldi n
  | false, true, true, false => .jmp n
  | false, true, true, true => .jc n
  | true, false, false, false => .jz n
  | true, false, false, true => .unassigned9 n
  | true, false, true, false => .unassignedA n
  | true, false, true, true => .unassignedB n
  | true, true, false, false => .unassignedC n
  | true, true, false, true => .unassignedD n
  | true, true, true, false => .out n
  | true, true, true, true => .hlt n

/-- The instruction a byte spells. Decoding reads nothing but the byte (30_encoding.md R54) and cannot fail
(R56, 40_cycle_engine.md R65). -/
def decode (b : Byte) : Instr := instrOf (opcodeField b) (operandField b)

/-- The opcode column of 30_encoding.md R53. -/
def Instr.opcode : Instr → Nibble
  | .nop _ => 0x0
  | .lda _ => 0x1
  | .add _ => 0x2
  | .sub _ => 0x3
  | .sta _ => 0x4
  | .ldi _ => 0x5
  | .jmp _ => 0x6
  | .jc _ => 0x7
  | .jz _ => 0x8
  | .unassigned9 _ => 0x9
  | .unassignedA _ => 0xA
  | .unassignedB _ => 0xB
  | .unassignedC _ => 0xC
  | .unassignedD _ => 0xD
  | .out _ => 0xE
  | .hlt _ => 0xF

/-- The operand bits `n` of an instruction, used or ignored (30_encoding.md R52). -/
def Instr.operand : Instr → Nibble
  | .nop n => n
  | .lda n => n
  | .add n => n
  | .sub n => n
  | .sta n => n
  | .ldi n => n
  | .jmp n => n
  | .jc n => n
  | .jz n => n
  | .unassigned9 n => n
  | .unassignedA n => n
  | .unassignedB n => n
  | .unassignedC n => n
  | .unassignedD n => n
  | .out n => n
  | .hlt n => n

/-- The instruction byte `(op << 4) | n` (30_encoding.md R61). -/
def encode (i : Instr) : Byte := (i.opcode.setWidth 8 <<< 4) ||| i.operand.setWidth 8

/-- The instruction byte among the lowest `nbits` bits of a table word: an instruction is one byte (R51), so bits
above the eighth are none of it, and bits above `nbits` are 0. -/
def tableByte (nbits w : Nat) : Byte := BitVec.ofNat 8 (w % 2 ^ nbits)

/-- The decoder over a word of spec/opcode_table.json. No instruction is longer than 8 bits (30_encoding.md R58), so a
longer one is refused. -/
def decodeTableWord (nbits w : Nat) : Option Instr :=
  if nbits ≤ 8 then some (decode (tableByte nbits w)) else none

end Sys2Proof
end

