-- ==== Sys2Proof/Config.lean ====
section
/-! DEFINITION. What is fixed for one machine and left open by the spec: `SUB_OVERFLOW_POLICY`. -/

namespace Sys2Proof

/-- The two values of the parameter `SUB_OVERFLOW_POLICY` (00_scope.md R9). -/
inductive SubOverflowPolicy where
  /-- an overflowing SUB stops the core in the faulted status (the reference's debug build) -/
  | fault
  /-- an overflowing SUB keeps the sum mod 256 (the reference's release build) -/
  | wrap
deriving DecidableEq, Repr, Inhabited

/-- `SUB_OVERFLOW_POLICY` of this machine. The spec leaves it OPEN (00_scope.md R9, 92_eei_decisions.md D10), so it
has no body here: nothing in Lean can prove which of the two values it is. DESIGN CHOICE, safe: log entry 1. -/
opaque Config.subOverflowPolicy : SubOverflowPolicy

end Sys2Proof
end

