-- ==== Sys2Proof/Machine/Flags.lean ====
section
/-! DEFINITION. The exact sum and the two sticky flags (42_arithmetic.md R82, R84, 10_state.md R21 to R23). -/

namespace Sys2Proof.Machine

/-- `s <- A + B`, exact, 0..510 (42_arithmetic.md R82). -/
def exactSum (a b : Byte) : Nat := a.toNat + b.toNat

/-- `s mod 256` as a byte (42_arithmetic.md R82). -/
def wrapByte (sum : Nat) : Byte := BitVec.ofNat 8 (sum % 256)

/-- The condition of CF: the sum overflowed 8 bits (10_state.md R21). -/
def carryOut (sum : Nat) : Bool := decide (256 ≤ sum)

/-- The condition of ZF: the sum mod 256 is 0 (10_state.md R22). -/
def zeroSum (sum : Nat) : Bool := decide (sum % 256 = 0)

/-- `CF <- CF or c`: set or left, never cleared (10_state.md R23). -/
def State.orCf (s : State) (c : Bool) : State := s.setCf (s.cf || c)

/-- `ZF <- ZF or z`: set or left, never cleared (10_state.md R23). -/
def State.orZf (s : State) (z : Bool) : State := s.setZf (s.zf || z)

end Sys2Proof.Machine
end

