-- ==== Sys2Proof/Machine/Operands.lean ====
section
/-! DEFINITION. The three operand forms of 30_encoding.md R52: address, immediate, ignored (which reads nothing). -/

namespace Sys2Proof.Machine

/-- `zext_8(v)`: a 4-bit value widened with zeros (00_scope.md R11). -/
def zext8 (v : Nibble) : Byte := v.setWidth 8

/-- The memory byte an address operand names (30_encoding.md R52). -/
def State.addressOperand (s : State) (n : Addr) : Byte := s.memRead n

/-- The value of an immediate operand: never sign-extended (30_encoding.md R52). -/
def immediateOperand (n : Nibble) : Byte := zext8 n

/-- The PC value of a jump target: absolute, neither scaled nor PC-relative (30_encoding.md R52, 43_control_transfer.md
R93). -/
def jumpTarget (n : Addr) : Byte := zext8 n

/-- `B <- MemRead(n, 1)`, the first line of ADD and of SUB (42_arithmetic.md R82, R84). -/
def State.loadOperandB (s : State) (n : Addr) : State := s.setB (s.addressOperand n)

/-- `PC <- n` (43_control_transfer.md R89). -/
def State.jumpTo (s : State) (n : Addr) : State := s.setPc (jumpTarget n)

end Sys2Proof.Machine
end

