-- ==== Sys2Proof/Machine/Arithmetic.lean ====
section
/-! DEFINITION. The meanings of ADD and SUB (42_arithmetic.md). -/

namespace Sys2Proof.Machine

/-- The writes of ADD once B is loaded: CF, ZF and A from the one exact sum (42_arithmetic.md R82). -/
def State.finishAdd (s : State) (sum : Nat) : State :=
  ((s.orCf (carryOut sum)).orZf (zeroSum sum)).setA (wrapByte sum)

/-- The writes of a SUB that completes, once B is loaded: A and ZF, never CF (42_arithmetic.md R84). -/
def State.finishSub (s : State) (sum : Nat) : State :=
  (s.setA (wrapByte sum)).orZf (zeroSum sum)

/-- ADD (42_arithmetic.md R82). -/
def execAdd (n : Addr) (s : State) : Host.Outcome State Fault Refusal :=
  let t := s.loadOperandB n
  .next (t.finishAdd (exactSum t.a t.b))

/-- SUB, which adds (42_arithmetic.md R84, 92_eei_decisions.md D7 to D9), under a given `SUB_OVERFLOW_POLICY`. A sum
above 255 raises SubOverflow under `fault`, with B loaded and A, CF and ZF unchanged (R85), and wraps under `wrap`.
The model's reading of SUB is log entry 10, that of the faulted state log entry 11. -/
def State.subUnder (s : State) (policy : SubOverflowPolicy) (n : Addr) : State :=
  let t := s.loadOperandB n
  let sum := exactSum t.a t.b
  if 256 ≤ sum then
    match policy with
    | .fault => t.raiseException .subOverflow
    | .wrap => t.finishSub (sum % 256)
  else t.finishSub sum

/-- SUB under this machine's policy (42_arithmetic.md R84). -/
def execSub (n : Addr) (s : State) : Host.Outcome State Fault Refusal :=
  .next (s.subUnder Config.subOverflowPolicy n)

end Sys2Proof.Machine
end

