-- ==== Sys2Proof/Machine/ControlTransfer.lean ====
section
/-! DEFINITION. The meanings of JMP, JC, JZ and HLT (43_control_transfer.md). PC already holds the fall-through address. -/

namespace Sys2Proof.Machine

/-- `if c: PC <- n`; otherwise PC keeps the advanced value (43_control_transfer.md R90, R91). -/
def State.jumpIf (s : State) (c : Bool) (n : Addr) : State := if c then s.jumpTo n else s

/-- JMP (R89). -/
def execJmp (n : Addr) (s : State) : Host.Outcome State Fault Refusal := .next (s.jumpTo n)

/-- JC (R90). -/
def execJc (n : Addr) (s : State) : Host.Outcome State Fault Refusal := .next (s.jumpIf s.cf n)

/-- JZ (R91). -/
def execJz (n : Addr) (s : State) : Host.Outcome State Fault Refusal := .next (s.jumpIf s.zf n)

/-- HLT, `RUN <- Halted`, operand bits ignored (R92). -/
def execHlt (_n : Nibble) (s : State) : Host.Outcome State Fault Refusal := .next (s.setRun .halted)

end Sys2Proof.Machine
end

