-- ==== Sys2Proof/Machine/DataMovement.lean ====
section
/-! DEFINITION. The meanings of NOP, the unassigned opcodes, LDA, STA, LDI and OUT (41_data_movement.md). -/

namespace Sys2Proof.Machine

/-- `skip`: no field is written, whatever the operand bits (41_data_movement.md R75, R76). -/
def skip (s : State) : Host.Outcome State Fault Refusal := .next s

/-- NOP (R75). -/
def execNop (_n : Nibble) (s : State) : Host.Outcome State Fault Refusal := skip s

/-- Opcode 0b1001, unassigned, as NOP (R76). -/
def execUnassigned9 (_n : Nibble) (s : State) : Host.Outcome State Fault Refusal := skip s

/-- Opcode 0b1010, unassigned, as NOP (R76). -/
def execUnassignedA (_n : Nibble) (s : State) : Host.Outcome State Fault Refusal := skip s

/-- Opcode 0b1011, unassigned, as NOP (R76). -/
def execUnassignedB (_n : Nibble) (s : State) : Host.Outcome State Fault Refusal := skip s

/-- Opcode 0b1100, unassigned, as NOP (R76). -/
def execUnassignedC (_n : Nibble) (s : State) : Host.Outcome State Fault Refusal := skip s

/-- Opcode 0b1101, unassigned, as NOP (R76). -/
def execUnassignedD (_n : Nibble) (s : State) : Host.Outcome State Fault Refusal := skip s

/-- LDA, `A <- MemRead(n, 1)`, no flag written (R77). -/
def execLda (n : Addr) (s : State) : Host.Outcome State Fault Refusal := .next (s.setA (s.addressOperand n))

/-- STA, `MemWrite(n, 1, A)` (R78). -/
def execSta (n : Addr) (s : State) : Host.Outcome State Fault Refusal := .next (s.memWrite n s.a)

/-- LDI, `A <- zext_8(n)`, no flag written (R79). -/
def execLdi (n : Nibble) (s : State) : Host.Outcome State Fault Refusal := .next (s.setA (immediateOperand n))

/-- OUT, `OUT <- A`, operand bits ignored (R80). -/
def execOut (_n : Nibble) (s : State) : Host.Outcome State Fault Refusal := .next (s.setOut s.a)

end Sys2Proof.Machine
end

