-- ==== Sys2Proof/Machine/Dispatch.lean ====
section
/-! DEFINITION. The Decode/Execute Table: one meaning per instruction (40_cycle_engine.md R66). -/

namespace Sys2Proof.Machine

/-- `execute(op, n)`, on the state as fetch and advance left it: PC already advanced (40_cycle_engine.md R62, R66). -/
def exec (i : Instr) (s : State) : Host.Outcome State Fault Refusal :=
  match i with
  | .nop n => Sys2Proof.Machine.execNop n s
  | .lda n => Sys2Proof.Machine.execLda n s
  | .add n => Sys2Proof.Machine.execAdd n s
  | .sub n => Sys2Proof.Machine.execSub n s
  | .sta n => Sys2Proof.Machine.execSta n s
  | .ldi n => Sys2Proof.Machine.execLdi n s
  | .jmp n => Sys2Proof.Machine.execJmp n s
  | .jc n => Sys2Proof.Machine.execJc n s
  | .jz n => Sys2Proof.Machine.execJz n s
  | .unassigned9 n => Sys2Proof.Machine.execUnassigned9 n s
  | .unassignedA n => Sys2Proof.Machine.execUnassignedA n s
  | .unassignedB n => Sys2Proof.Machine.execUnassignedB n s
  | .unassignedC n => Sys2Proof.Machine.execUnassignedC n s
  | .unassignedD n => Sys2Proof.Machine.execUnassignedD n s
  | .out n => Sys2Proof.Machine.execOut n s
  | .hlt n => Sys2Proof.Machine.execHlt n s

end Sys2Proof.Machine
end

