-- ==== Sys2Proof/Machine/Cycle.lean ====
section
/-! DEFINITION. The cycle engine's step in full (40_cycle_engine.md R62): the state after it, and what the host is told. -/

namespace Sys2Proof.Machine

/-- The cycle result a step returns (40_cycle_engine.md R62). -/
inductive CycleResult where
  | ran (v : Byte)
  | halted
  | faulted (cause : ExceptionCause)
deriving DecidableEq, Repr

/-- The argument of `raise SubOverflow(info)` (00_scope.md R11): what was raised and the address of the instruction that
raised it. It is no core state (60_exceptions.md R96). -/
structure RaisedException where
  cause : ExceptionCause
  address : Nat
deriving DecidableEq, Repr

/-- What one step request answers: the state after it, the cycle result, and the events of the step. The result and the
events are outputs, not state (10_state.md R29; DESIGN CHOICE: log entry 7). -/
structure CycleReply where
  state : State
  result : CycleResult
  /-- the value of the `Report` event, if the step emits one (40_cycle_engine.md R68) -/
  report : Option Byte
  /-- the exception the step raised, if any -/
  raised : Option RaisedException
deriving DecidableEq, Repr

/-- The reply of a running step that ends in `t`: it reports OUT and returns `Ran(OUT)` only if RUN is still running
(40_cycle_engine.md R68). -/
def CycleReply.ofRunningStep (t : State) : CycleReply :=
  match t.run with
  | .running => ⟨t, .ran t.out, some t.out, none⟩
  | .halted => ⟨t, .halted, none, none⟩
  | .faulted c => ⟨t, .faulted c, none, some ⟨c, t.raisedAddress⟩⟩

/-- Fetch, advance, decode and execute, from a running state (40_cycle_engine.md R62, steps 1 to 4). PC above 15 is
refused (93_implementation_defined.md I7). -/
def State.runInstruction (s : State) : Host.Outcome State Fault Refusal :=
  match s.fetch with
  | some instr => exec (decode instr) s.advancePc
  | none => .refused (.pcOutOfRange s.pc)

/-- One step request (40_cycle_engine.md R62). From a terminal status nothing changes, nothing is fetched and nothing is
reported (R69, R70). -/
def cycle (s : State) : Host.Outcome CycleReply Fault Refusal :=
  match s.run with
  | .halted => .next ⟨s, .halted, none, none⟩
  | .faulted c => .next ⟨s, .faulted c, none, none⟩
  | .running =>
    match s.runInstruction with
    | .next t => .next (.ofRunningStep t)
    | .fault f => .fault f
    | .refused r => .refused r

end Sys2Proof.Machine
end

