-- ==== Sys2Proof/Machine/Step.lean ====
section
/-! DEFINITION. The step function, the state part of `cycle`, and the placing of an instruction for the next fetch. -/

namespace Sys2Proof.Machine

/-- One step of the core (40_cycle_engine.md R62): the state after one step request. -/
def step (s : State) : Host.Outcome State Fault Refusal :=
  match cycle s with
  | .next r => .next r.state
  | .fault f => .fault f
  | .refused r => .refused r

/-- The state whose next step runs the instruction whose bits are `w` (log entry 3). -/
def State.withFetchWord (s : State) (nbits w : Nat) : State := s.placeForFetch (tableByte nbits w)

end Sys2Proof.Machine
end

