-- ==== Sys2Proof/Safety.lean ====
section
/-! DEFINITION. What a sound state and a safe run are, in the terms the statements use. -/

namespace Sys2Proof.Machine

/-- What the spec says of every state of a run from construction. -/
structure State.Inv (s : State) : Prop where
  /-- PC is always in 0..15 (10_state.md R16) -/
  pc_le : s.pc.toNat ≤ 15
  /-- memory is in its canonical form: the 16 cells and nothing else (20_memory.md R35) -/
  mem_wf : s.mem.wf = true
  /-- IR holds its reset value 0 forever (10_state.md R18) -/
  ir_zero : s.ir = 0
  /-- the ALU latch holds its reset value 0 forever (10_state.md R19) -/
  alu_zero : s.alu = 0
  /-- the faulted status exists only under the policy `fault` (40_cycle_engine.md R70) -/
  faulted_policy : s.run = .faulted .subOverflow → Config.subOverflowPolicy = .fault

/-- The run has ended: RUN is terminal (40_cycle_engine.md R71). -/
def State.ended (s : State) : Bool := s.run != .running

/-- A run that ends in this state is a failed run: RUN is Faulted (40_cycle_engine.md R71). -/
def State.failed (s : State) : Bool := s.run == .faulted .subOverflow

/-- The state after `k` step requests is `t`. -/
abbrev RunsTo (k : Nat) (s t : State) : Prop := Host.Core.run Sys2Proof.core k s = .next t

/-- A safe run: however many steps are requested, no state of it is failed. -/
def State.RunsSafely (s : State) : Prop := ∀ k t, RunsTo k s t → t.failed = false

/-- The instruction that a running step from `s` runs: the decoded byte at `MEM[PC]`; none where no step runs one. -/
def State.nextInstr (s : State) : Option Instr :=
  if s.run = .running then s.fetch.map decode else none

/-- The step from `s` is a taken jump to `n` (43_control_transfer.md R89 to R91). -/
def State.TakesJump (s : State) (n : Addr) : Prop :=
  s.nextInstr = some (.jmp n) ∨ (s.nextInstr = some (.jc n) ∧ s.cf = true) ∨
    (s.nextInstr = some (.jz n) ∧ s.zf = true)

/-- The exact sum `A + MEM[n]` that an ADD or SUB of cell `n` forms (42_arithmetic.md R82, R84). -/
def State.sumWith (s : State) (n : Addr) : Nat := s.a.toNat + (s.memRead n).toNat

end Sys2Proof.Machine
end

