-- ==== Sys2Proof/Certificates/Slice0/Obligations.lean ====
section
/-! DEFINITION. The statements for the provers: what the numbered rules of spec/ say the core does. -/

open Sys2Proof Sys2Proof.Machine

/-! ### Encoding (30_encoding.md) -/

/-- No bit of an encoding is dropped: decoding and encoding undo each other, on every instruction and every byte. That
the ignored operand bits are kept in the instruction is the model's choice (log entry 8). -/
def Obligations.DecodeAndEncodeAreInverse : Prop :=
  (∀ i : Instr, decode (encode i) = i) ∧ (∀ b : Byte, encode (decode b) = b)

/-- R53: the opcode map, one clause per row. -/
def Obligations.OpcodeMapRowsDecode : Prop :=
  ∀ n : Nibble,
    decode (0b0000#4 ++ n) = .nop n ∧ decode (0b0001#4 ++ n) = .lda n ∧
    decode (0b0010#4 ++ n) = .add n ∧ decode (0b0011#4 ++ n) = .sub n ∧
    decode (0b0100#4 ++ n) = .sta n ∧ decode (0b0101#4 ++ n) = .ldi n ∧
    decode (0b0110#4 ++ n) = .jmp n ∧ decode (0b0111#4 ++ n) = .jc n ∧
    decode (0b1000#4 ++ n) = .jz n ∧ decode (0b1001#4 ++ n) = .unassigned9 n ∧
    decode (0b1010#4 ++ n) = .unassignedA n ∧ decode (0b1011#4 ++ n) = .unassignedB n ∧
    decode (0b1100#4 ++ n) = .unassignedC n ∧ decode (0b1101#4 ++ n) = .unassignedD n ∧
    decode (0b1110#4 ++ n) = .out n ∧ decode (0b1111#4 ++ n) = .hlt n

/-- Words written out from the encodings of the spec's own examples decode to the instructions they stand for. -/
def Obligations.WrittenOutWordsDecode : Prop :=
  decode 0x07 = .nop 7 ∧ decode 0x1E = .lda 14 ∧ decode 0x2F = .add 15 ∧ decode 0x3C = .sub 12 ∧
  decode 0x43 = .sta 3 ∧ decode 0x5A = .ldi 10 ∧ decode 0x61 = .jmp 1 ∧ decode 0x75 = .jc 5 ∧
  decode 0x82 = .jz 2 ∧ decode 0xC3 = .unassignedC 3 ∧ decode 0xE7 = .out 7 ∧ decode 0xFF = .hlt 15

/-- R51, R54: the high nibble alone is the opcode and the low nibble alone the operand. -/
def Obligations.DecodeReadsTheTwoNibbles : Prop :=
  ∀ b : Byte, (decode b).opcode.toNat = b.toNat / 16 ∧ (decode b).operand.toNat = b.toNat % 16

/-- Every byte is a valid instruction, and executing it always answers a next state (30_encoding.md R56,
40_cycle_engine.md R66). That an overflowing SUB under `fault` answers a next state too is the model's reading (log
entry 4), and that `Instr.wf` accepts every instruction is its check for R56 (log entry 15). -/
def Obligations.EveryByteExecutes : Prop :=
  ∀ (b : Byte) (s : State), (decode b).wf = true ∧ ∃ t, exec (decode b) s = .next t

/-! ### The instructions (41_data_movement.md, 42_arithmetic.md, 43_control_transfer.md)

Each equation gives the whole next state, so it is the instruction's frame as well: every field it does not name keeps
its value, and where it does not name `mem` every byte of memory reads as before. PC is already advanced. -/

/-- R75. -/
def Obligations.NopChangesNothing : Prop :=
  ∀ (n : Nibble) (s : State), decode (0b0000#4 ++ n) = .nop n ∧ exec (.nop n) s = .next s

/-- R55, R76: each of the five unassigned opcodes, as NOP. -/
def Obligations.UnassignedOpcodesActAsNop : Prop :=
  ∀ (n : Nibble) (s : State), exec (.nop n) s = .next s ∧
    (decode (0b1001#4 ++ n) = .unassigned9 n ∧ exec (.unassigned9 n) s = .next s) ∧
    (decode (0b1010#4 ++ n) = .unassignedA n ∧ exec (.unassignedA n) s = .next s) ∧
    (decode (0b1011#4 ++ n) = .unassignedB n ∧ exec (.unassignedB n) s = .next s) ∧
    (decode (0b1100#4 ++ n) = .unassignedC n ∧ exec (.unassignedC n) s = .next s) ∧
    (decode (0b1101#4 ++ n) = .unassignedD n ∧ exec (.unassignedD n) s = .next s)

/-- R77. -/
def Obligations.LdaLoadsAccumulator : Prop :=
  ∀ (n : Addr) (s : State), decode (0b0001#4 ++ n) = .lda n ∧
    exec (.lda n) s = .next { s with a := s.memRead n }

/-- R78: cell `n` holds A, every other cell reads as before, and no field but memory changes. -/
def Obligations.StaStoresAccumulator : Prop :=
  ∀ (n : Addr) (s : State), decode (0b0100#4 ++ n) = .sta n ∧
    ∃ t, exec (.sta n) s = .next t ∧ t.memRead n = s.a ∧
      (∀ c : Addr, c ≠ n → t.memRead c = s.memRead c) ∧ t = { s with mem := t.mem }

/-- R79: the literal 0..15, zero-extended. -/
def Obligations.LdiLoadsLiteral : Prop :=
  ∀ (n : Nibble) (s : State), decode (0b0101#4 ++ n) = .ldi n ∧
    exec (.ldi n) s = .next { s with a := BitVec.ofNat 8 n.toNat }

/-- OUT copies A into OUT, and the step that runs it reports the new value. That this step reports rests on the spec's
own decision D4 (log entry 7). -/
def Obligations.OutCopiesAccumulatorAndReports : Prop :=
  (∀ (n : Nibble) (s : State), decode (0b1110#4 ++ n) = .out n ∧
    exec (.out n) s = .next { s with out := s.a }) ∧
  (∀ (n : Nibble) (s : State), s.nextInstr = some (.out n) →
    ∃ r, cycle s = .next r ∧ r.state.out = s.a ∧ r.report = some s.a ∧ r.result = .ran s.a)

/-- R82, R83. -/
def Obligations.AddSumsAndSetsFlags : Prop :=
  ∀ (n : Addr) (s : State), decode (0b0010#4 ++ n) = .add n ∧
    exec (.add n) s = .next { s with
      a := BitVec.ofNat 8 (s.sumWith n % 256)
      b := s.memRead n
      cf := s.cf || decide (256 ≤ s.sumWith n)
      zf := s.zf || decide (s.sumWith n % 256 = 0) }

/-- A SUB whose sum fits 8 bits adds, whatever the policy. It rests on the spec's own decisions D7, D8 and D9
(log entry 10). -/
def Obligations.SubWithinRangeAdds : Prop :=
  ∀ (n : Addr) (s : State), s.sumWith n ≤ 255 → decode (0b0011#4 ++ n) = .sub n ∧
    exec (.sub n) s = .next { s with
      a := BitVec.ofNat 8 (s.sumWith n)
      b := s.memRead n
      zf := s.zf || decide (s.sumWith n = 0) }

/-- A SUB whose sum exceeds 255 enters the faulted status under `fault` and wraps under `wrap`; CF is not written under
either. It rests on the spec's own decisions D7 to D11 (log entries 1, 10, 11); the spec asks that no claim about a run
rest on a field of a faulted state other than RUN. -/
def Obligations.SubOverflowFollowsPolicy : Prop :=
  ∀ (n : Addr) (s : State), 256 ≤ s.sumWith n →
    exec (.sub n) s = .next
      (if Config.subOverflowPolicy = .fault then
        { s with b := s.memRead n, run := .faulted .subOverflow }
      else
        { s with
          a := BitVec.ofNat 8 (s.sumWith n - 256)
          b := s.memRead n
          zf := s.zf || decide (s.sumWith n = 256) })

/-- R89. -/
def Obligations.JmpSetsPc : Prop :=
  ∀ (n : Addr) (s : State), decode (0b0110#4 ++ n) = .jmp n ∧
    exec (.jmp n) s = .next { s with pc := BitVec.ofNat 8 n.toNat }

/-- R90. -/
def Obligations.JcJumpsOnCarryOnly : Prop :=
  ∀ (n : Addr) (s : State), decode (0b0111#4 ++ n) = .jc n ∧
    exec (.jc n) s = .next { s with pc := if s.cf = true then BitVec.ofNat 8 n.toNat else s.pc }

/-- R91. -/
def Obligations.JzJumpsOnZeroOnly : Prop :=
  ∀ (n : Addr) (s : State), decode (0b1000#4 ++ n) = .jz n ∧
    exec (.jz n) s = .next { s with pc := if s.zf = true then BitVec.ofNat 8 n.toNat else s.pc }

/-- HLT writes RUN and nothing else. It rests on the spec's own decision D3 (log entry 5). -/
def Obligations.HltHalts : Prop :=
  ∀ (n : Nibble) (s : State), decode (0b1111#4 ++ n) = .hlt n ∧
    exec (.hlt n) s = .next { s with run := .halted }

/-! ### The step (40_cycle_engine.md) -/

/-- R64: a running step runs the instruction decoded from the byte at PC, on the state whose PC has advanced. -/
def Obligations.StepRunsDecodedInstruction : Prop :=
  ∀ s : State, s.run = .running → s.pc.toNat ≤ 15 →
    step s = exec (decode (s.memRead (s.pc.setWidth 4)))
      { s with pc := if s.pc.toNat + 1 ≤ 15 then BitVec.ofNat 8 (s.pc.toNat + 1) else 0 }

/-- A running step with PC above 15 is refused by name (93_implementation_defined.md I7): the model's choice of
representation, log entry 6. -/
def Obligations.PcOutOfRangeIsRefused : Prop :=
  ∀ s : State, s.run = .running → 15 < s.pc.toNat → step s = .refused (.pcOutOfRange s.pc)

/-- What a step request answers in each status it may end in, its result, its report and the exception it raises, and
that `step` is its state part. A step that ends running or halted raises nothing; one that ends faulted raised its
exception, at the address of the instruction it ran, exactly if it began running (60_exceptions.md R96, R97). It rests on
the spec's own decisions D3, D4 and D11 (log entries 5, 7). -/
def Obligations.CycleReportsOutWhileRunning : Prop :=
  (∀ s t : State, step s = .next t ↔ ∃ r, cycle s = .next r ∧ r.state = t) ∧
  (∀ (s : State) (r : CycleReply), cycle s = .next r →
    (r.state.run = .running →
      r.result = .ran r.state.out ∧ r.report = some r.state.out ∧ r.raised = none) ∧
    (r.state.run = .halted → r.result = .halted ∧ r.report = none ∧ r.raised = none) ∧
    (∀ c, r.state.run = .faulted c → r.result = .faulted c ∧ r.report = none ∧
      r.raised = if s.run = .running then some ⟨c, s.pc.toNat⟩ else none))

/-- A step request in a terminal status changes nothing, reports nothing, raises nothing and returns the status
(decisions D3, D11; log entry 5). -/
def Obligations.TerminalCycleChangesNothing : Prop :=
  (∀ s : State, s.run = .halted → cycle s = .next ⟨s, .halted, none, none⟩) ∧
  (∀ (s : State) (c : ExceptionCause), s.run = .faulted c → cycle s = .next ⟨s, .faulted c, none, none⟩)

/-- However many steps are requested, a terminal status is never left and no field changes (decisions D3, D11;
log entry 5). -/
def Obligations.TerminalStatusIsNeverLeft : Prop :=
  ∀ (k : Nat) (s : State), s.ended = true → RunsTo k s s

/-- After a step that runs HLT, only PC and RUN differ from the state before it, for ever (decision D3; log entry 5). -/
def Obligations.HltEndsTheRun : Prop :=
  ∀ (k : Nat) (n : Nibble) (s : State), s.nextInstr = some (.hlt n) →
    RunsTo (k + 1) s { s with pc := BitVec.ofNat 8 ((s.pc.toNat + 1) % 16), run := .halted }

/-- A cell that a step changes is the one its STA names, and it then holds A (an inference of the spec,
40_cycle_engine.md R74). -/
def Obligations.OnlyStaChangesMemory : Prop :=
  ∀ (s t : State) (c : Addr), step s = .next t → t.memRead c ≠ s.memRead c →
    s.nextInstr = some (.sta c) ∧ t.memRead c = s.a

/-- What a step may change in the registers, the flags and RUN, by the instruction it runs (an inference of the spec,
40_cycle_engine.md R74; for SUB it rests on decisions D8 and D9, log entry 10). IR and ALU are in `IrAndAluAreDead`,
PC in `StepSetsPc`. -/
def Obligations.StepChangesOnlyNamedFields : Prop :=
  ∀ s t : State, step s = .next t →
    (t.a ≠ s.a → ∃ n, s.nextInstr = some (.lda n) ∨ s.nextInstr = some (.add n) ∨
      s.nextInstr = some (.sub n) ∨ s.nextInstr = some (.ldi n)) ∧
    (t.b ≠ s.b → ∃ n, s.nextInstr = some (.add n) ∨ s.nextInstr = some (.sub n)) ∧
    (t.out ≠ s.out → ∃ n, s.nextInstr = some (.out n)) ∧
    (t.cf ≠ s.cf → ∃ n, s.nextInstr = some (.add n)) ∧
    (t.zf ≠ s.zf → ∃ n, s.nextInstr = some (.add n) ∨ s.nextInstr = some (.sub n)) ∧
    (t.run ≠ s.run → ∃ n, s.nextInstr = some (.hlt n) ∨ s.nextInstr = some (.sub n))

/-- PC after a running step: the target of a taken jump, else the next address mod 16 (10_state.md R17; the mod 16 form
is the spec's inference in 40_cycle_engine.md R64). -/
def Obligations.StepSetsPc : Prop :=
  ∀ s t : State, s.run = .running → step s = .next t →
    (∀ n, s.TakesJump n → t.pc.toNat = n.toNat) ∧
    ((∀ n, ¬ s.TakesJump n) → t.pc.toNat = (s.pc.toNat + 1) % 16)

/-- A byte stored into the cell fetched next is the instruction that the next step runs (an inference of the spec,
20_memory.md R48, R49). -/
def Obligations.StoredByteRunsNext : Prop :=
  ∀ (s : State) (n : Addr), s.nextInstr = some (.sta n) → n.toNat = (s.pc.toNat + 1) % 16 →
    ∃ t, step s = .next t ∧ t.nextInstr = some (decode s.a)

/-- The step that runs an overflowing SUB: under `fault` it ends faulted, reports nothing and names the address of the
SUB; under `wrap` it goes on. It rests on the spec's own decisions D4, D7 to D11 (log entries 1, 7, 10). -/
def Obligations.SubOverflowStepAnswers : Prop :=
  ∀ (s : State) (n : Addr), s.nextInstr = some (.sub n) → 256 ≤ s.sumWith n →
    ∃ r, cycle s = .next r ∧
      if Config.subOverflowPolicy = .fault then
        r.state.run = .faulted .subOverflow ∧ r.result = .faulted .subOverflow ∧ r.report = none ∧
          r.raised = some ⟨.subOverflow, s.pc.toNat⟩
      else
        r.state.run = .running ∧ r.result = .ran s.out ∧ r.report = some s.out ∧ r.raised = none

/-! ### Construction (70_reset_and_hazards.md) -/

/-- R27: at construction memory holds the image, cell by cell. -/
def Obligations.ConstructionLoadsImage : Prop :=
  ∀ (image : Image) (a : Addr), (State.construct image).memRead a = image.get a.toFin

/-- Construction leaves every register and flag zero and RUN running, and the first step fetches cell 0. RUN's reset
value is the spec's own decision D12. -/
def Obligations.ConstructionZeroesRegisters : Prop :=
  ∀ image : Image, State.construct image =
      { a := 0, b := 0, pc := 0, ir := 0, alu := 0, out := 0, cf := false, zf := false
        mem := (State.construct image).mem, run := .running } ∧
    (State.construct image).fetch = some (image.get 0)

/-- The reset state, construction with the all-zero image (log entry 2), meets the invariant. -/
def Obligations.ResetMeetsInvariant : Prop := State.reset.Inv

/-- Construction with any image meets the invariant, whose clauses are inferences and decisions of the spec (10_state.md
R16, R18, R19, 40_cycle_engine.md R70) and the model's canonical memory (log entry 2). -/
def Obligations.ConstructionMeetsInvariant : Prop := ∀ image : Image, (State.construct image).Inv

/-! ### Whole runs -/

/-- The invariant is kept by every step, from every state that meets it, reached or not. Its clauses are inferences and
decisions of the spec (10_state.md R16, R18, R19, 40_cycle_engine.md R70) and the model's canonical memory (log
entry 2). -/
def Obligations.StepKeepsInvariant : Prop :=
  ∀ s t : State, s.Inv → step s = .next t → t.Inv

/-- From every state that meets the invariant the machine answers any number of step requests, and every state it
answers meets the invariant: no fault and no refusal is ever reached. That terminal steps and an overflowing SUB answer a
next state is the model's reading (log entries 4, 5). -/
def Obligations.EveryRunGoesOn : Prop :=
  ∀ s : State, s.Inv → ∀ k : Nat, ∃ t, RunsTo k s t ∧ t.Inv

/-- Both flags are sticky along every run: no instruction clears them (10_state.md section 6). -/
def Obligations.FlagsAreSticky : Prop :=
  ∀ (k : Nat) (s t : State), RunsTo k s t → (s.cf = true → t.cf = true) ∧ (s.zf = true → t.zf = true)

/-- CF reports whether some ADD of the run so far carried, and nothing else. That SUB never counts is the spec's own
decision D9 (log entry 10). -/
def Obligations.CarryRecordsSomeAdd : Prop :=
  ∀ (k : Nat) (s t : State), RunsTo k s t →
    (t.cf = true ↔ s.cf = true ∨
      ∃ (j : Nat) (u : State) (n : Addr), j < k ∧ RunsTo j s u ∧
        u.nextInstr = some (.add n) ∧ 256 ≤ u.sumWith n)

/-- ZF reports whether some ADD or completed SUB of the run so far had result 0, and nothing else. What SUB does is the
spec's own decisions D7, D8 and D10 (log entries 1, 10). -/
def Obligations.ZeroRecordsSomeZeroResult : Prop :=
  ∀ (k : Nat) (s t : State), RunsTo k s t →
    (t.zf = true ↔ s.zf = true ∨
      ∃ (j : Nat) (u : State) (n : Addr), j < k ∧ RunsTo j s u ∧
        ((u.nextInstr = some (.add n) ∧ (u.sumWith n = 0 ∨ u.sumWith n = 256)) ∨
         (u.nextInstr = some (.sub n) ∧
           (u.sumWith n = 0 ∨ (u.sumWith n = 256 ∧ Config.subOverflowPolicy = .wrap)))))

/-- No run writes or reads IR or the ALU latch: they keep their values, and other values in them change nothing else
(decisions D5, D6; log entry 9). -/
def Obligations.IrAndAluAreDead : Prop :=
  ∀ (k : Nat) (s t : State), RunsTo k s t → t.ir = s.ir ∧ t.alu = s.alu ∧
    ∀ x y : Byte, RunsTo k { s with ir := x, alu := y } { t with ir := x, alu := y }

/-- No run reads OUT or the old value of B: with any other values in them the run is the same, and B and OUT each either
are overwritten with the value they get anyway or still hold the other value, whatever the two values are. In
particular neither flows into the other (10_state.md R15, R20). That SUB loads B before it adds is the spec's own
decision D8 (log entry 10). -/
def Obligations.OutAndOldBAreNeverRead : Prop :=
  ∀ (k : Nat) (s t : State), RunsTo k s t →
    ∃ loaded written : Bool, ∀ x y : Byte,
      RunsTo k { s with b := x, out := y }
        { t with b := if loaded then t.b else x, out := if written then t.out else y }

/-- Without a taken jump, PC counts the steps mod 16 (an inference of the spec, 40_cycle_engine.md R73). -/
def Obligations.PcCountsStepsModSixteen : Prop :=
  ∀ (k : Nat) (s t : State), s.pc.toNat ≤ 15 → RunsTo k s t →
    (∀ j < k, ∀ u, RunsTo j s u → u.run = .running ∧ ∀ n, ¬ u.TakesJump n) →
    t.pc.toNat = (s.pc.toNat + k) % 16

/-- While no OUT runs, every report repeats the value OUT had (the report stream is decision D4, log entry 7). -/
def Obligations.ReportsRepeatUntilNextOut : Prop :=
  ∀ (k : Nat) (s t : State) (r : CycleReply) (v : Byte),
    (∀ j ≤ k, ∀ u, RunsTo j s u → ∀ n, u.nextInstr ≠ some (.out n)) →
    RunsTo k s t → cycle t = .next r → r.report = some v → v = s.out

/-- A run fails only through an overflowing SUB: one that starts unfailed and runs none is safe, under either policy
(60_exceptions.md R96, R97; decisions D10, D11, log entries 1, 11). -/
def Obligations.RunWithoutSubOverflowIsSafe : Prop :=
  ∀ s : State, s.failed = false →
    (∀ (k : Nat) (u : State) (n : Addr), RunsTo k s u → u.nextInstr = some (.sub n) → u.sumWith n ≤ 255) →
    s.RunsSafely

/-! ### Memory as data -/

/-- Canonical memories whose 16 cells read alike are equal data (the model's representation, log entry 2). -/
def Obligations.CanonicalMemoriesEqualByCells : Prop :=
  ∀ m m' : Memory, m.wf = true → m'.wf = true →
    (∀ a : Addr, m.read a.toNat = m'.read a.toNat) → m = m'
end

