-- ==== Sys2Proof/Laws/Memory.lean ====
section
/-! SUPPORT. The laws of memory: reading after a write, and the canonical form that every operation keeps. -/

namespace Sys2Proof.Machine

/-! ### Reading -/

@[simp] theorem Memory.read_nil (a : Nat) : Memory.read [] a = unlistedByte := rfl

theorem Memory.read_cons (k : Nat) (v : Byte) (m : Memory) (a : Nat) :
    Memory.read ((k, v) :: m) a = if k = a then v else Memory.read m a := rfl

theorem Memory.read_erase (m : Memory) (a c : Nat) :
    (m.erase a).read c = if c = a then unlistedByte else m.read c := by
  induction m with
  | nil => simp [Memory.erase]
  | cons cell m ih =>
    obtain ⟨k, w⟩ := cell
    unfold Memory.erase
    by_cases hk : k = a
    · rw [if_pos hk, ih]
      by_cases hc : c = a
      · simp [hc]
      · simp [hc, Memory.read_cons, show k ≠ c by omega]
    · rw [if_neg hk, Memory.read_cons, Memory.read_cons, ih]
      by_cases hc : c = a
      · simp [hc, hk]
      · simp [hc]

theorem Memory.read_insertCell (m : Memory) (a c : Nat) (v : Byte) (absent : ∀ w, (a, w) ∉ m) :
    (m.insertCell a v).read c = if c = a then v else m.read c := by
  induction m with
  | nil => simp [Memory.insertCell, Memory.read_cons, eq_comm]
  | cons cell m ih =>
    obtain ⟨k, w⟩ := cell
    have hk : k ≠ a := fun h => absent w (by simp [h])
    have hrest := ih fun w h => absent w (List.mem_cons_of_mem _ h)
    unfold Memory.insertCell
    by_cases hlt : a < k
    · rw [if_pos hlt, Memory.read_cons]
      simp [eq_comm]
    · rw [if_neg hlt, Memory.read_cons, Memory.read_cons, hrest]
      by_cases hc : c = a
      · simp [hc, hk]
      · simp [hc]

theorem Memory.not_mem_erase (m : Memory) (a : Nat) (w : Byte) : (a, w) ∉ m.erase a := by
  induction m with
  | nil => simp [Memory.erase]
  | cons cell m ih =>
    obtain ⟨k, v⟩ := cell
    unfold Memory.erase
    by_cases hk : k = a
    · simpa [hk] using ih
    · simp [hk, ih, Ne.symm hk]

/-- What a write does to reading: the cell written reads as the byte, every other cell as before. -/
@[simp] theorem Memory.read_write (m : Memory) (a c : Nat) (v : Byte) :
    (m.write a v).read c = if c = a then v else m.read c := by
  unfold Memory.write
  by_cases hv : v = unlistedByte
  · simp [hv, Memory.read_erase]
  · have absent := Memory.not_mem_erase m a
    simp only [hv, if_false, Memory.read_insertCell _ _ _ _ absent, Memory.read_erase]
    by_cases hc : c = a <;> simp [hc]

/-! ### The canonical form -/

theorem Memory.wfFrom_cons (lo k : Nat) (v : Byte) (m : Memory) :
    Memory.wfFrom lo ((k, v) :: m) = true ↔
      lo ≤ k ∧ k < 16 ∧ v ≠ unlistedByte ∧ m.wfFrom (k + 1) = true := by
  simp [Memory.wfFrom, and_assoc]

theorem Memory.wfFrom_mono {m : Memory} {lo lo' : Nat} (hle : lo' ≤ lo) (h : m.wfFrom lo = true) :
    m.wfFrom lo' = true := by
  cases m with
  | nil => rfl
  | cons cell m =>
    obtain ⟨k, v⟩ := cell
    rw [Memory.wfFrom_cons] at h ⊢
    exact ⟨le_trans hle h.1, h.2⟩

theorem Memory.wfFrom_erase {m : Memory} {lo : Nat} (a : Nat) (h : m.wfFrom lo = true) :
    (m.erase a).wfFrom lo = true := by
  induction m generalizing lo with
  | nil => rfl
  | cons cell m ih =>
    obtain ⟨k, v⟩ := cell
    obtain ⟨hlo, h16, hv, hm⟩ := (Memory.wfFrom_cons ..).1 h
    unfold Memory.erase
    by_cases hk : k = a
    · simpa [hk] using Memory.wfFrom_mono (by omega) (ih hm)
    · simpa [hk, Memory.wfFrom_cons] using ⟨hlo, h16, hv, ih hm⟩

theorem Memory.wfFrom_insertCell {m : Memory} {lo a : Nat} {v : Byte} (hlo : lo ≤ a) (h16 : a < 16)
    (hv : v ≠ unlistedByte) (absent : ∀ w, (a, w) ∉ m) (h : m.wfFrom lo = true) :
    (m.insertCell a v).wfFrom lo = true := by
  induction m generalizing lo with
  | nil => simpa [Memory.insertCell, Memory.wfFrom_cons] using ⟨hlo, h16, hv, rfl⟩
  | cons cell m ih =>
    obtain ⟨k, w⟩ := cell
    obtain ⟨hk, hk16, hw, hm⟩ := (Memory.wfFrom_cons ..).1 h
    unfold Memory.insertCell
    by_cases hlt : a < k
    · rw [if_pos hlt, Memory.wfFrom_cons, Memory.wfFrom_cons]
      exact ⟨hlo, h16, hv, by omega, hk16, hw, hm⟩
    · have hne : k ≠ a := fun e => absent w (by simp [e])
      have := ih (lo := k + 1) (by omega) (fun w' hw' => absent w' (List.mem_cons_of_mem _ hw')) hm
      rw [if_neg hlt, Memory.wfFrom_cons]
      exact ⟨hk, hk16, hw, this⟩

/-- Every write keeps the canonical form. -/
theorem Memory.write_wf {m : Memory} {a : Nat} (v : Byte) (ha : a < 16) (h : m.wf = true) :
    (m.write a v).wf = true := by
  unfold Memory.write Memory.wf
  by_cases hv : v = unlistedByte
  · simpa [hv] using Memory.wfFrom_erase a h
  · simpa [hv] using Memory.wfFrom_insertCell (Nat.zero_le a) ha hv (Memory.not_mem_erase m a)
      (Memory.wfFrom_erase a h)

/-- Construction from at most the 16 cells gives a canonical memory. -/
theorem Memory.ofBytes_wfFrom (a : Nat) (vs : List Byte) (h : a + vs.length ≤ 16) :
    (Memory.ofBytes a vs).wfFrom a = true := by
  induction vs generalizing a with
  | nil => rfl
  | cons v vs ih =>
    simp only [List.length_cons] at h
    have hrest := ih (a + 1) (by omega)
    unfold Memory.ofBytes
    by_cases hv : v = unlistedByte
    · simpa [hv] using Memory.wfFrom_mono (by omega) hrest
    · simpa [hv, Memory.wfFrom_cons] using ⟨by omega, hrest⟩

theorem Memory.read_ofBytes_below (a : Nat) (vs : List Byte) (c : Nat) (h : c < a) :
    (Memory.ofBytes a vs).read c = unlistedByte := by
  induction vs generalizing a with
  | nil => rfl
  | cons v vs ih =>
    unfold Memory.ofBytes
    by_cases hv : v = unlistedByte
    · simpa [hv] using ih (a + 1) (by omega)
    · simpa [hv, Memory.read_cons, show a ≠ c by omega] using ih (a + 1) (by omega)

/-- Construction puts the bytes at consecutive addresses. -/
theorem Memory.read_ofBytes (a : Nat) (vs : List Byte) (c : Nat) (h : a ≤ c) :
    (Memory.ofBytes a vs).read c = vs.getD (c - a) unlistedByte := by
  induction vs generalizing a with
  | nil => simp [Memory.ofBytes]
  | cons v vs ih =>
    unfold Memory.ofBytes
    by_cases hc : c = a
    · subst hc
      by_cases hv : v = unlistedByte
      · simpa [hv] using Memory.read_ofBytes_below (c + 1) vs c (by omega)
      · simp [hv, Memory.read_cons]
    · have hrest := ih (a + 1) (by omega)
      have hsub : c - a = (c - (a + 1)) + 1 := by omega
      by_cases hv : v = unlistedByte
      · simpa [hv, hsub] using hrest
      · simpa [hv, hsub, Memory.read_cons, Ne.symm hc] using hrest

end Sys2Proof.Machine
end

