-- ==== Sys2Proof/Laws/State.lean ====
section
/-! SUPPORT. One lemma per field per update of State, so that no proof unfolds a record update. -/

namespace Sys2Proof.Machine

variable (s : State)

@[simp] theorem State.setA_a (v : Byte) : (s.setA v).a = v := rfl
@[simp] theorem State.setA_b (v : Byte) : (s.setA v).b = s.b := rfl
@[simp] theorem State.setA_pc (v : Byte) : (s.setA v).pc = s.pc := rfl
@[simp] theorem State.setA_ir (v : Byte) : (s.setA v).ir = s.ir := rfl
@[simp] theorem State.setA_alu (v : Byte) : (s.setA v).alu = s.alu := rfl
@[simp] theorem State.setA_out (v : Byte) : (s.setA v).out = s.out := rfl
@[simp] theorem State.setA_cf (v : Byte) : (s.setA v).cf = s.cf := rfl
@[simp] theorem State.setA_zf (v : Byte) : (s.setA v).zf = s.zf := rfl
@[simp] theorem State.setA_mem (v : Byte) : (s.setA v).mem = s.mem := rfl
@[simp] theorem State.setA_run (v : Byte) : (s.setA v).run = s.run := rfl

@[simp] theorem State.setB_a (v : Byte) : (s.setB v).a = s.a := rfl
@[simp] theorem State.setB_b (v : Byte) : (s.setB v).b = v := rfl
@[simp] theorem State.setB_pc (v : Byte) : (s.setB v).pc = s.pc := rfl
@[simp] theorem State.setB_ir (v : Byte) : (s.setB v).ir = s.ir := rfl
@[simp] theorem State.setB_alu (v : Byte) : (s.setB v).alu = s.alu := rfl
@[simp] theorem State.setB_out (v : Byte) : (s.setB v).out = s.out := rfl
@[simp] theorem State.setB_cf (v : Byte) : (s.setB v).cf = s.cf := rfl
@[simp] theorem State.setB_zf (v : Byte) : (s.setB v).zf = s.zf := rfl
@[simp] theorem State.setB_mem (v : Byte) : (s.setB v).mem = s.mem := rfl
@[simp] theorem State.setB_run (v : Byte) : (s.setB v).run = s.run := rfl

@[simp] theorem State.setPc_a (v : Byte) : (s.setPc v).a = s.a := rfl
@[simp] theorem State.setPc_b (v : Byte) : (s.setPc v).b = s.b := rfl
@[simp] theorem State.setPc_pc (v : Byte) : (s.setPc v).pc = v := rfl
@[simp] theorem State.setPc_ir (v : Byte) : (s.setPc v).ir = s.ir := rfl
@[simp] theorem State.setPc_alu (v : Byte) : (s.setPc v).alu = s.alu := rfl
@[simp] theorem State.setPc_out (v : Byte) : (s.setPc v).out = s.out := rfl
@[simp] theorem State.setPc_cf (v : Byte) : (s.setPc v).cf = s.cf := rfl
@[simp] theorem State.setPc_zf (v : Byte) : (s.setPc v).zf = s.zf := rfl
@[simp] theorem State.setPc_mem (v : Byte) : (s.setPc v).mem = s.mem := rfl
@[simp] theorem State.setPc_run (v : Byte) : (s.setPc v).run = s.run := rfl

@[simp] theorem State.setOut_a (v : Byte) : (s.setOut v).a = s.a := rfl
@[simp] theorem State.setOut_b (v : Byte) : (s.setOut v).b = s.b := rfl
@[simp] theorem State.setOut_pc (v : Byte) : (s.setOut v).pc = s.pc := rfl
@[simp] theorem State.setOut_ir (v : Byte) : (s.setOut v).ir = s.ir := rfl
@[simp] theorem State.setOut_alu (v : Byte) : (s.setOut v).alu = s.alu := rfl
@[simp] theorem State.setOut_out (v : Byte) : (s.setOut v).out = v := rfl
@[simp] theorem State.setOut_cf (v : Byte) : (s.setOut v).cf = s.cf := rfl
@[simp] theorem State.setOut_zf (v : Byte) : (s.setOut v).zf = s.zf := rfl
@[simp] theorem State.setOut_mem (v : Byte) : (s.setOut v).mem = s.mem := rfl
@[simp] theorem State.setOut_run (v : Byte) : (s.setOut v).run = s.run := rfl

@[simp] theorem State.setCf_a (v : Bool) : (s.setCf v).a = s.a := rfl
@[simp] theorem State.setCf_b (v : Bool) : (s.setCf v).b = s.b := rfl
@[simp] theorem State.setCf_pc (v : Bool) : (s.setCf v).pc = s.pc := rfl
@[simp] theorem State.setCf_ir (v : Bool) : (s.setCf v).ir = s.ir := rfl
@[simp] theorem State.setCf_alu (v : Bool) : (s.setCf v).alu = s.alu := rfl
@[simp] theorem State.setCf_out (v : Bool) : (s.setCf v).out = s.out := rfl
@[simp] theorem State.setCf_cf (v : Bool) : (s.setCf v).cf = v := rfl
@[simp] theorem State.setCf_zf (v : Bool) : (s.setCf v).zf = s.zf := rfl
@[simp] theorem State.setCf_mem (v : Bool) : (s.setCf v).mem = s.mem := rfl
@[simp] theorem State.setCf_run (v : Bool) : (s.setCf v).run = s.run := rfl

@[simp] theorem State.setZf_a (v : Bool) : (s.setZf v).a = s.a := rfl
@[simp] theorem State.setZf_b (v : Bool) : (s.setZf v).b = s.b := rfl
@[simp] theorem State.setZf_pc (v : Bool) : (s.setZf v).pc = s.pc := rfl
@[simp] theorem State.setZf_ir (v : Bool) : (s.setZf v).ir = s.ir := rfl
@[simp] theorem State.setZf_alu (v : Bool) : (s.setZf v).alu = s.alu := rfl
@[simp] theorem State.setZf_out (v : Bool) : (s.setZf v).out = s.out := rfl
@[simp] theorem State.setZf_cf (v : Bool) : (s.setZf v).cf = s.cf := rfl
@[simp] theorem State.setZf_zf (v : Bool) : (s.setZf v).zf = v := rfl
@[simp] theorem State.setZf_mem (v : Bool) : (s.setZf v).mem = s.mem := rfl
@[simp] theorem State.setZf_run (v : Bool) : (s.setZf v).run = s.run := rfl

@[simp] theorem State.setMem_a (v : Memory) : (s.setMem v).a = s.a := rfl
@[simp] theorem State.setMem_b (v : Memory) : (s.setMem v).b = s.b := rfl
@[simp] theorem State.setMem_pc (v : Memory) : (s.setMem v).pc = s.pc := rfl
@[simp] theorem State.setMem_ir (v : Memory) : (s.setMem v).ir = s.ir := rfl
@[simp] theorem State.setMem_alu (v : Memory) : (s.setMem v).alu = s.alu := rfl
@[simp] theorem State.setMem_out (v : Memory) : (s.setMem v).out = s.out := rfl
@[simp] theorem State.setMem_cf (v : Memory) : (s.setMem v).cf = s.cf := rfl
@[simp] theorem State.setMem_zf (v : Memory) : (s.setMem v).zf = s.zf := rfl
@[simp] theorem State.setMem_mem (v : Memory) : (s.setMem v).mem = v := rfl
@[simp] theorem State.setMem_run (v : Memory) : (s.setMem v).run = s.run := rfl

@[simp] theorem State.setRun_a (v : RunStatus) : (s.setRun v).a = s.a := rfl
@[simp] theorem State.setRun_b (v : RunStatus) : (s.setRun v).b = s.b := rfl
@[simp] theorem State.setRun_pc (v : RunStatus) : (s.setRun v).pc = s.pc := rfl
@[simp] theorem State.setRun_ir (v : RunStatus) : (s.setRun v).ir = s.ir := rfl
@[simp] theorem State.setRun_alu (v : RunStatus) : (s.setRun v).alu = s.alu := rfl
@[simp] theorem State.setRun_out (v : RunStatus) : (s.setRun v).out = s.out := rfl
@[simp] theorem State.setRun_cf (v : RunStatus) : (s.setRun v).cf = s.cf := rfl
@[simp] theorem State.setRun_zf (v : RunStatus) : (s.setRun v).zf = s.zf := rfl
@[simp] theorem State.setRun_mem (v : RunStatus) : (s.setRun v).mem = s.mem := rfl
@[simp] theorem State.setRun_run (v : RunStatus) : (s.setRun v).run = v := rfl

theorem State.setA_eq (v : Byte) : s.setA v = { s with a := v } := rfl
theorem State.setB_eq (v : Byte) : s.setB v = { s with b := v } := rfl
theorem State.setPc_eq (v : Byte) : s.setPc v = { s with pc := v } := rfl
theorem State.setOut_eq (v : Byte) : s.setOut v = { s with out := v } := rfl
theorem State.setCf_eq (v : Bool) : s.setCf v = { s with cf := v } := rfl
theorem State.setZf_eq (v : Bool) : s.setZf v = { s with zf := v } := rfl
theorem State.setMem_eq (v : Memory) : s.setMem v = { s with mem := v } := rfl
theorem State.setRun_eq (v : RunStatus) : s.setRun v = { s with run := v } := rfl

end Sys2Proof.Machine
end

