-- ==== Sys2Proof/Laws/Ops.lean ====
section
/-! SUPPORT. For each shared operation, one lemma that says once everything it does. -/

namespace Sys2Proof.Machine

/-- `MemWrite` sets one cell; `MemRead` sees it and every other cell as before. -/
@[simp] theorem State.memRead_memWrite (s : State) (a c : Addr) (v : Byte) :
    (s.memWrite a v).memRead c = if c = a then v else s.memRead c := by
  simp [State.memRead, State.memWrite, BitVec.toNat_inj]

/-- Reading memory depends on MEM alone. -/
theorem State.memRead_congr {s t : State} (h : t.mem = s.mem) (a : Addr) : t.memRead a = s.memRead a := by
  simp [State.memRead, h]

/-- `MemWrite` writes nothing but MEM. -/
theorem State.memWrite_eq (s : State) (a : Addr) (v : Byte) :
    s.memWrite a v = { s with mem := s.mem.write a.toNat v } := rfl

/-- `MemWrite` keeps the canonical form. -/
theorem State.memWrite_wf {s : State} (a : Addr) (v : Byte) (h : s.mem.wf = true) :
    (s.memWrite a v).mem.wf = true :=
  Memory.write_wf v a.isLt h

/-- Everything a fetch can answer. -/
theorem State.fetch_eq_some {s : State} {v : Byte} :
    s.fetch = some v ↔ s.pc.toNat ≤ 15 ∧ v = s.memRead (s.pc.setWidth 4) := by
  unfold State.fetch
  split <;> simp_all [eq_comm]

/-- The advance keeps PC in 0..15. -/
theorem nextPc_le (pc : Byte) : (nextPc pc).toNat ≤ 15 := by
  unfold nextPc
  split
  · simp
  · have : (pc + 1).toNat = pc.toNat + 1 := by simp; omega
    omega

/-- From PC in 0..15 the advance counts mod 16. -/
theorem nextPc_toNat {pc : Byte} (h : pc.toNat ≤ 15) : (nextPc pc).toNat = (pc.toNat + 1) % 16 := by
  unfold nextPc
  split
  · simp; omega
  · have : (pc + 1).toNat = pc.toNat + 1 := by simp; omega
    omega

/-- The advance writes nothing but PC. -/
theorem State.advancePc_eq (s : State) : s.advancePc = { s with pc := nextPc s.pc } := rfl

/-- The PC value of a jump target is the operand's number. -/
@[simp] theorem jumpTarget_toNat (n : Addr) : (jumpTarget n).toNat = n.toNat := by
  have := n.isLt
  simp [jumpTarget, zext8]
  omega

theorem jumpTarget_eq (n : Addr) : jumpTarget n = BitVec.ofNat 8 n.toNat := by
  simp [jumpTarget, zext8]

/-- The value of an immediate operand is the operand's number. -/
theorem immediateOperand_eq (n : Nibble) : immediateOperand n = BitVec.ofNat 8 n.toNat := by
  simp [immediateOperand, zext8]

/-- Raising an exception writes nothing but RUN. -/
theorem State.raiseException_eq (s : State) (c : ExceptionCause) :
    s.raiseException c = { s with run := .faulted c } := rfl

theorem State.loadOperandB_eq (s : State) (n : Addr) : s.loadOperandB n = { s with b := s.memRead n } := rfl

theorem State.jumpIf_eq (s : State) (c : Bool) (n : Addr) :
    s.jumpIf c n = { s with pc := if c then jumpTarget n else s.pc } := by
  cases c <;> rfl

theorem exactSum_lt (a b : Byte) : exactSum a b < 511 := by
  have := a.isLt
  have := b.isLt
  unfold exactSum
  omega

@[simp] theorem wrapByte_toNat (sum : Nat) : (wrapByte sum).toNat = sum % 256 := by
  simp [wrapByte]

@[simp] theorem wrapByte_mod (sum : Nat) : wrapByte (sum % 256) = wrapByte sum := by
  simp [wrapByte]

@[simp] theorem zeroSum_mod (sum : Nat) : zeroSum (sum % 256) = zeroSum sum := by
  simp [zeroSum]

/-- Everything the writes of ADD do. -/
theorem State.finishAdd_eq (s : State) (sum : Nat) :
    s.finishAdd sum = { s with
      a := wrapByte sum, cf := s.cf || carryOut sum, zf := s.zf || zeroSum sum } := rfl

/-- Everything the writes of a completing SUB do. -/
theorem State.finishSub_eq (s : State) (sum : Nat) :
    s.finishSub sum = { s with a := wrapByte sum, zf := s.zf || zeroSum sum } := rfl

/-- Everything a SUB can do: it completes, or its sum exceeds 255 under `fault` and it raises. -/
theorem State.subUnder_cases (s : State) (policy : SubOverflowPolicy) (n : Addr) :
    (256 ≤ exactSum s.a (s.memRead n) ∧ policy = .fault ∧
      s.subUnder policy n = { s with b := s.memRead n, run := .faulted .subOverflow }) ∨
    ((exactSum s.a (s.memRead n) < 256 ∨ policy = .wrap) ∧
      s.subUnder policy n = { s with
        a := wrapByte (exactSum s.a (s.memRead n)), b := s.memRead n,
        zf := s.zf || zeroSum (exactSum s.a (s.memRead n)) }) := by
  unfold State.subUnder
  simp only [State.loadOperandB_eq, State.raiseException_eq, State.finishSub_eq]
  cases policy with
  | fault =>
    by_cases h : 256 ≤ exactSum s.a (s.memRead n)
    · exact .inl ⟨h, rfl, by simp [h]⟩
    · exact .inr ⟨.inl (by omega), by simp [h]⟩
  | wrap =>
    refine .inr ⟨.inr rfl, ?_⟩
    by_cases h : 256 ≤ exactSum s.a (s.memRead n)
    · simp [h]
    · simp [h]

@[simp] theorem State.subUnder_mem (s : State) (p : SubOverflowPolicy) (n : Addr) :
    (s.subUnder p n).mem = s.mem := by
  rcases s.subUnder_cases p n with ⟨_, _, h⟩ | ⟨_, h⟩ <;> rw [h]

@[simp] theorem State.subUnder_pc (s : State) (p : SubOverflowPolicy) (n : Addr) :
    (s.subUnder p n).pc = s.pc := by
  rcases s.subUnder_cases p n with ⟨_, _, h⟩ | ⟨_, h⟩ <;> rw [h]

@[simp] theorem State.subUnder_out (s : State) (p : SubOverflowPolicy) (n : Addr) :
    (s.subUnder p n).out = s.out := by
  rcases s.subUnder_cases p n with ⟨_, _, h⟩ | ⟨_, h⟩ <;> rw [h]

@[simp] theorem State.subUnder_cf (s : State) (p : SubOverflowPolicy) (n : Addr) :
    (s.subUnder p n).cf = s.cf := by
  rcases s.subUnder_cases p n with ⟨_, _, h⟩ | ⟨_, h⟩ <;> rw [h]

@[simp] theorem State.subUnder_ir (s : State) (p : SubOverflowPolicy) (n : Addr) :
    (s.subUnder p n).ir = s.ir := by
  rcases s.subUnder_cases p n with ⟨_, _, h⟩ | ⟨_, h⟩ <;> rw [h]

@[simp] theorem State.subUnder_alu (s : State) (p : SubOverflowPolicy) (n : Addr) :
    (s.subUnder p n).alu = s.alu := by
  rcases s.subUnder_cases p n with ⟨_, _, h⟩ | ⟨_, h⟩ <;> rw [h]

/-- Construction writes nothing but MEM over the reset state. -/
theorem State.construct_eq (image : Image) :
    State.construct image = { State.reset with mem := Memory.ofBytes 0 image.toList } := rfl

/-- The reset state is construction with the all-zero image. -/
theorem State.construct_zero : State.construct (Vector.replicate 16 0) = State.reset := by decide

/-- Construction from exactly 16 raw bytes is construction with the image they are. -/
theorem State.constructFrom?_eq (image : Image) :
    State.constructFrom? image.toList = some (State.construct image) := by
  simp [State.constructFrom?, State.construct, imageWf]

end Sys2Proof.Machine
end

