-- ==== Sys2Proof/Laws/PerInstr.lean ====
section
/-! SUPPORT. The family of statements about each instruction as syntax: where its byte holds the opcode and the operand. -/

namespace Sys2Proof.Laws.EncodedFields

open Sys2Proof

/-- The instruction byte holds the opcode in its high nibble and the operand in its low nibble (30_encoding.md R51). -/
def Statement (i : Instr) : Prop := opcodeField (encode i) = i.opcode ∧ operandField (encode i) = i.operand

theorem fields_of_nibbles (op n : Nibble) :
    opcodeField ((op.setWidth 8 <<< 4) ||| n.setWidth 8) = op ∧
    operandField ((op.setWidth 8 <<< 4) ||| n.setWidth 8) = n := by
  revert op n
  decide

theorem nop (n : Nibble) : Statement (.nop n) := fields_of_nibbles _ n
theorem lda (n : Addr) : Statement (.lda n) := fields_of_nibbles _ n
theorem add (n : Addr) : Statement (.add n) := fields_of_nibbles _ n
theorem sub (n : Addr) : Statement (.sub n) := fields_of_nibbles _ n
theorem sta (n : Addr) : Statement (.sta n) := fields_of_nibbles _ n
theorem ldi (n : Nibble) : Statement (.ldi n) := fields_of_nibbles _ n
theorem jmp (n : Addr) : Statement (.jmp n) := fields_of_nibbles _ n
theorem jc (n : Addr) : Statement (.jc n) := fields_of_nibbles _ n
theorem jz (n : Addr) : Statement (.jz n) := fields_of_nibbles _ n
theorem unassigned9 (n : Nibble) : Statement (.unassigned9 n) := fields_of_nibbles _ n
theorem unassignedA (n : Nibble) : Statement (.unassignedA n) := fields_of_nibbles _ n
theorem unassignedB (n : Nibble) : Statement (.unassignedB n) := fields_of_nibbles _ n
theorem unassignedC (n : Nibble) : Statement (.unassignedC n) := fields_of_nibbles _ n
theorem unassignedD (n : Nibble) : Statement (.unassignedD n) := fields_of_nibbles _ n
theorem out (n : Nibble) : Statement (.out n) := fields_of_nibbles _ n
theorem hlt (n : Nibble) : Statement (.hlt n) := fields_of_nibbles _ n

end Sys2Proof.Laws.EncodedFields
end

