-- ==== Sys2Proof/Laws/Step.lean ====
section
/-! SUPPORT. What an instruction, a step and a run can do, said once. -/

namespace Sys2Proof.Machine

/-- Every meaning answers a state: everything an instruction does to a state, by instruction. -/
def effect (i : Instr) (s : State) : State :=
  match i with
  | .nop _ => s
  | .lda n => { s with a := s.memRead n }
  | .add n => { s with
      a := wrapByte (exactSum s.a (s.memRead n)), b := s.memRead n
      cf := s.cf || carryOut (exactSum s.a (s.memRead n))
      zf := s.zf || zeroSum (exactSum s.a (s.memRead n)) }
  | .sub n => s.subUnder Config.subOverflowPolicy n
  | .sta n => s.memWrite n s.a
  | .ldi n => { s with a := immediateOperand n }
  | .jmp n => { s with pc := jumpTarget n }
  | .jc n => { s with pc := if s.cf then jumpTarget n else s.pc }
  | .jz n => { s with pc := if s.zf then jumpTarget n else s.pc }
  | .unassigned9 _ => s
  | .unassignedA _ => s
  | .unassignedB _ => s
  | .unassignedC _ => s
  | .unassignedD _ => s
  | .out _ => { s with out := s.a }
  | .hlt _ => { s with run := .halted }

/-- `exec` answers `effect`, for every instruction. -/
theorem exec_eq_effect (i : Instr) (s : State) : exec i s = .next (effect i s) := by
  cases i with
  | jc n => simp [exec, execJc, effect, State.jumpIf_eq]
  | jz n => simp [exec, execJz, effect, State.jumpIf_eq]
  | _ => rfl

/-! ### The step -/

/-- What it means that the next step runs an instruction. -/
theorem State.nextInstr_eq_some {s : State} {i : Instr} :
    s.nextInstr = some i ↔
      s.run = .running ∧ s.pc.toNat ≤ 15 ∧ decode (s.memRead (s.pc.setWidth 4)) = i := by
  unfold State.nextInstr
  split <;> simp_all [State.fetch_eq_some, and_assoc]

@[simp] theorem CycleReply.ofRunningStep_state (t : State) : (CycleReply.ofRunningStep t).state = t := by
  unfold CycleReply.ofRunningStep
  split <;> rfl

/-- The step request that runs an instruction answers the reply of its effect on the advanced state. -/
theorem cycle_of_nextInstr {s : State} {i : Instr} (h : s.nextInstr = some i) :
    cycle s = .next (.ofRunningStep (effect i s.advancePc)) := by
  obtain ⟨hr, hpc, rfl⟩ := State.nextInstr_eq_some.1 h
  simp [cycle, hr, State.runInstruction, State.fetch_eq_some.2 ⟨hpc, rfl⟩, exec_eq_effect]

/-- The step that runs an instruction answers its effect on the advanced state. -/
theorem step_of_nextInstr {s : State} {i : Instr} (h : s.nextInstr = some i) :
    step s = .next (effect i s.advancePc) := by
  simp [step, cycle_of_nextInstr h]

/-- A step in a terminal status answers the same state. -/
theorem step_of_terminal {s : State} (h : s.run ≠ .running) : step s = .next s := by
  unfold step cycle
  cases hr : s.run <;> simp_all

/-- A running step with PC above 15 answers no state. -/
theorem step_ne_next_of_pc {s t : State} (hr : s.run = .running) (hpc : 15 < s.pc.toNat) : step s ≠ .next t := by
  simp [step, cycle, hr, State.runInstruction, State.fetch, Nat.not_le.2 hpc]

/-- Everything a step that answers a state can do: stay in a terminal status, or run one instruction. -/
theorem step_eq_next {s t : State} :
    step s = .next t ↔
      (s.run ≠ .running ∧ t = s) ∨ ∃ i, s.nextInstr = some i ∧ t = effect i s.advancePc := by
  constructor
  · intro h
    by_cases hr : s.run = .running
    · by_cases hpc : s.pc.toNat ≤ 15
      · have hi := State.nextInstr_eq_some.2 ⟨hr, hpc, rfl⟩
        rw [step_of_nextInstr hi] at h
        exact .inr ⟨_, hi, by injection h with h; exact h.symm⟩
      · exact absurd h (step_ne_next_of_pc hr (by omega))
    · rw [step_of_terminal hr] at h
      exact .inl ⟨hr, by injection h with h; exact h.symm⟩
  · rintro (⟨h, rfl⟩ | ⟨i, h, rfl⟩)
    · exact step_of_terminal h
    · exact step_of_nextInstr h

/-! ### Runs -/

@[simp] theorem runsTo_zero {s t : State} : RunsTo 0 s t ↔ s = t := by
  constructor
  · intro h
    injection h
  · rintro rfl
    rfl

/-- A run of one step more answers a state exactly when its first step and the rest do, on any machine. -/
theorem coreRun_succ (M : Host.Core) (k : Nat) (s t : M.State) :
    M.run (k + 1) s = .next t ↔ ∃ u, M.step s = .next u ∧ M.run k u = .next t := by
  rw [Host.Core.run]
  cases M.step s <;> simp

/-- A run of one step more, by its first step. -/
theorem runsTo_succ {k : Nat} {s t : State} : RunsTo (k + 1) s t ↔ ∃ u, step s = .next u ∧ RunsTo k u t :=
  coreRun_succ Sys2Proof.core k s t

/-- A run of one step more, by its last step. -/
theorem runsTo_last {k : Nat} {s t : State} : RunsTo (k + 1) s t ↔ ∃ u, RunsTo k s u ∧ step u = .next t := by
  induction k generalizing s with
  | zero => simp [runsTo_succ]
  | succ k ih =>
    rw [runsTo_succ]
    constructor
    · rintro ⟨u, h1, h2⟩
      obtain ⟨v, h3, h4⟩ := ih.1 h2
      exact ⟨v, runsTo_succ.2 ⟨u, h1, h3⟩, h4⟩
    · rintro ⟨v, h1, h2⟩
      obtain ⟨u, h3, h4⟩ := runsTo_succ.1 h1
      exact ⟨u, h3, ih.2 ⟨v, h4, h2⟩⟩

/-- A run of `k` steps answers one state. -/
theorem RunsTo.unique {k : Nat} {s t u : State} (h : RunsTo k s t) (h' : RunsTo k s u) : t = u := by
  have e := h.symm.trans h'
  injection e

end Sys2Proof.Machine
end

