-- ==== Sys2Proof/Tests/Slice0.lean ====
section
/-! SUPPORT. Own tests: words written out from the encoding, the checks refusing ill-formed terms, single steps taken from
the vectors of spec/95_test_vectors.md, and one concrete witness for the hypotheses of every statement that has some. -/

namespace Sys2Proof.Tests

open Sys2Proof Sys2Proof.Machine

/-- The reset state with the given cells in memory. -/
def boot (m : Memory) : State := { State.reset with mem := m }

/-- The state after one step, where the step answers one. -/
def after (s : State) : Option State :=
  match step s with
  | .next t => some t
  | _ => none

/-- The reply of one step request, where it answers one. -/
def reply (s : State) : Option CycleReply :=
  match cycle s with
  | .next r => some r
  | _ => none

/-! ### Decoding: words written out from 30_encoding.md R53, `oooo nnnn` -/

theorem test_decode_nop : decode 0b00000111 = .nop 7 := by decide
theorem test_decode_lda : decode 0b00011110 = .lda 14 := by decide
theorem test_decode_add : decode 0b00101111 = .add 15 := by decide
theorem test_decode_sub : decode 0b00111100 = .sub 12 := by decide
theorem test_decode_sta : decode 0b01000011 = .sta 3 := by decide
theorem test_decode_ldi : decode 0b01010101 = .ldi 5 := by decide
theorem test_decode_jmp : decode 0b01100001 = .jmp 1 := by decide
theorem test_decode_jc : decode 0b01110101 = .jc 5 := by decide
theorem test_decode_jz : decode 0b10000010 = .jz 2 := by decide
theorem test_decode_unassigned9 : decode 0b10010000 = .unassigned9 0 := by decide
theorem test_decode_unassignedA : decode 0b10101000 = .unassignedA 8 := by decide
theorem test_decode_unassignedB : decode 0b10110001 = .unassignedB 1 := by decide
theorem test_decode_unassignedC : decode 0b11000011 = .unassignedC 3 := by decide
theorem test_decode_unassignedD : decode 0b11011111 = .unassignedD 15 := by decide
theorem test_decode_out : decode 0b11100111 = .out 7 := by decide
theorem test_decode_hlt : decode 0b11111111 = .hlt 15 := by decide

/-- 30_encoding.md R61: LDI 5, LDI 10, OUT, HLT, LDA 14, JMP 0. -/
theorem test_encode_examples :
    encode (.ldi 5) = 0x55 ∧ encode (.ldi 10) = 0x5A ∧ encode (.out 0) = 0xE0 ∧ encode (.hlt 0) = 0xF0 ∧
    encode (.lda 14) = 0x1E ∧ encode (.jmp 0) = 0x60 := by decide

theorem test_decodeTableWord : decodeTableWord 8 0x2F = some (.add 15) := by decide
theorem test_decodeTableWord_longer : decodeTableWord 16 0x2F = none := by decide

/-! ### Ill-formed terms refused -/

theorem test_image_of_15_bytes_refused : State.constructFrom? (List.replicate 15 0xF0) = none := by decide
theorem test_image_of_17_bytes_refused : imageWf (List.replicate 17 0xF0) = false := by decide
theorem test_image_of_16_bytes_accepted : imageWf (List.replicate 16 0xF0) = true := by decide
/-- `Instr.wf` has no ill-formed term: it accepts the unassigned opcodes too (R56). -/
theorem test_unassigned_wf : Instr.wf (.unassignedD 15) = true := by decide
theorem test_memory_unsorted_refused : Memory.wf [(3, 1), (2, 1)] = false := by decide
theorem test_memory_repeat_refused : Memory.wf [(3, 1), (3, 2)] = false := by decide
theorem test_memory_unlisted_value_refused : Memory.wf [(3, 0)] = false := by decide
theorem test_memory_address_16_refused : Memory.wf [(16, 1)] = false := by decide
theorem test_memory_accepted : Memory.wf [(0, 1), (15, 255)] = true := by decide

/-! ### Single steps (95_test_vectors.md section 2; the vector's name is in the theorem's) -/

theorem test_NOP_2 : after { boot [(3, 0x07)] with pc := 3, a := 9 } = some { boot [(3, 0x07)] with pc := 4, a := 9 } := by
  decide
theorem test_UN_1 : after { boot [(0, 0x90)] with a := 1 } = some { boot [(0, 0x90)] with a := 1, pc := 1 } := by decide
theorem test_unassigned_A_B : (after (boot [(0, 0xA5)])).map (·.pc) = some 1 ∧
    (after (boot [(0, 0xBF)])).map (·.pc) = some 1 := by decide
theorem test_UN_2 : after { boot [(15, 0xC3)] with pc := 15 } = some (boot [(15, 0xC3)]) := by decide
theorem test_UN_3 : after { boot [(0, 0xDF)] with a := 255, cf := true } =
    some { boot [(0, 0xDF)] with a := 255, cf := true, pc := 1 } := by decide
theorem test_LDA_1 : (after (boot [(0, 0x1E), (14, 200)])).map (·.a) = some 200 := by decide
theorem test_LDA_2 : (after { boot [(0, 0x1E)] with a := 5 }).map (fun t => (t.a, t.zf)) = some (0, false) := by decide
theorem test_STA_1 : (after { boot [(0, 0x43)] with a := 0xE0 }).map (·.mem) = some [(0, 0x43), (3, 0xE0)] := by decide
/-- A store of 0x00 removes the cell from the list. -/
theorem test_STA_zero : (after (boot [(0, 0x43), (3, 9)])).map (·.mem) = some [(0, 0x43)] := by decide
theorem test_LDI_2 : (after (boot [(0, 0x5F)])).map (·.a) = some 15 := by decide
theorem test_LDI_3 : (after { boot [(0, 0x50)] with a := 3 }).map (fun t => (t.a, t.zf)) = some (0, false) := by decide
theorem test_OUT_1 : (reply { boot [(0, 0xE0)] with a := 42 }).map (fun r => (r.state.out, r.report, r.result)) =
    some (42, some 42, .ran 42) := by decide
theorem test_ADD_3 : (after { boot [(0, 0x2F), (15, 1)] with a := 255 }).map (fun t => (t.a, t.b, t.cf, t.zf)) =
    some (0, 1, true, true) := by decide
theorem test_ADD_9 : (after { boot [(0, 0x2F), (15, 1)] with a := 1, cf := true, zf := true }).map
    (fun t => (t.a, t.b, t.cf, t.zf)) = some (2, 1, true, true) := by decide
theorem test_SUB_1 : (after { boot [(0, 0x3C), (12, 3)] with a := 5 }).map (fun t => (t.a, t.b, t.zf)) =
    some (8, 3, false) := by decide
/-- SUB-4 and SUB-5: the same overflowing SUB under `fault` and under `wrap`, PC already advanced. -/
theorem test_SUB_4_SUB_5 :
    { boot [(12, 128)] with a := 128, pc := 1 }.subUnder .fault 12 =
      { boot [(12, 128)] with a := 128, b := 128, pc := 1, run := .faulted .subOverflow } ∧
    { boot [(12, 128)] with a := 128, pc := 1 }.subUnder .wrap 12 =
      { boot [(12, 128)] with a := 0, b := 128, pc := 1, zf := true } := by decide
theorem test_JMP_1 : (after { boot [(4, 0x61)] with pc := 4 }).map (·.pc) = some 1 := by decide
theorem test_JC_1 : (after { boot [(3, 0x75)] with pc := 3, cf := true }).map (·.pc) = some 5 := by decide
theorem test_JC_3 : (after { boot [(15, 0x75)] with pc := 15, zf := true }).map (·.pc) = some 0 := by decide
theorem test_JZ_2 : (after (boot [(0, 0x82)])).map (·.pc) = some 1 := by decide
theorem test_JZ_3 : (after { boot [(15, 0x87)] with pc := 15, zf := true }).map (·.pc) = some 7 := by decide
theorem test_HLT_2 : reply { boot [(15, 0xFF)] with pc := 15 } =
    some ⟨{ boot [(15, 0xFF)] with run := .halted }, .halted, none, none⟩ := by decide
theorem test_TERM_1 : reply { boot [(0, 0x51)] with run := .halted } =
    some ⟨{ boot [(0, 0x51)] with run := .halted }, .halted, none, none⟩ := by decide

/-- The pipeline's way to place an instruction: the next step runs it. -/
theorem test_withFetchWord : (after (State.reset.withFetchWord 8 0x5A)).map (·.a) = some 10 := by decide
/-- A listed word is replaced, and nothing but the cell changes on the reset state. -/
theorem test_withFetchWord_only_the_cell :
    (boot [(0, 0x11), (2, 5)]).withFetchWord 8 0xE0 = boot [(0, 0xE0), (2, 5)] := by decide

/-! ### Witnesses: the hypotheses of each statement are met together by a concrete state -/

/-- At the boundary sum 255 (SUB-9). -/
theorem witness_SubWithinRangeAdds : ({ boot [(0, 0x3C)] with a := 255 } : State).sumWith 12 ≤ 255 := by decide

/-- At the boundary sum 256 (SUB-4) and at the greatest sum 510 (SUB-8). -/
theorem witness_SubOverflowFollowsPolicy :
    256 ≤ ({ boot [(12, 128)] with a := 128 } : State).sumWith 12 ∧
    256 ≤ ({ boot [(12, 255)] with a := 255 } : State).sumWith 12 := by decide

theorem witness_StaStoresAccumulator : (4 : Addr) ≠ 3 := by decide

theorem witness_OutCopiesAccumulatorAndReports : (boot [(0, 0xE7)]).nextInstr = some (.out 7) := by decide

/-- At PC = 0, 14 and 15. -/
theorem witness_StepRunsDecodedInstruction :
    (State.reset.run = .running ∧ State.reset.pc.toNat ≤ 15) ∧
    (({ State.reset with pc := 14 } : State).run = .running ∧ ({ State.reset with pc := 14 } : State).pc.toNat ≤ 15) ∧
    (({ State.reset with pc := 15 } : State).run = .running ∧ ({ State.reset with pc := 15 } : State).pc.toNat ≤ 15) := by
  decide

theorem witness_PcOutOfRangeIsRefused :
    ({ State.reset with pc := 16 } : State).run = .running ∧ 15 < ({ State.reset with pc := 16 } : State).pc.toNat := by
  decide

/-- A cycle that ends running, one that ends halted and one that ends faulted (having begun so: whether a running one can
end faulted is the open policy's, and `witness_SubOverflowStepAnswers` is its state). -/
theorem witness_CycleReportsOutWhileRunning :
    (reply State.reset).map (·.state.run) = some .running ∧
    (reply (boot [(0, 0xF0)])).map (·.state.run) = some .halted ∧
    (reply { State.reset with run := .faulted .subOverflow }).map (·.state.run) = some (.faulted .subOverflow) := by
  decide

theorem witness_TerminalCycleChangesNothing :
    ({ State.reset with run := .halted } : State).run = .halted ∧
    ({ State.reset with run := .faulted .subOverflow } : State).run = .faulted .subOverflow := by decide

theorem witness_TerminalStatusIsNeverLeft :
    ({ State.reset with run := .halted } : State).ended = true ∧
    ({ State.reset with run := .faulted .subOverflow } : State).ended = true := by decide

theorem witness_HltEndsTheRun : (boot [(0, 0xFF)]).nextInstr = some (.hlt 15) := by decide

theorem witness_OnlyStaChangesMemory :
    step { boot [(0, 0x43)] with a := 0xE0 } = .next { boot [(0, 0x43), (3, 0xE0)] with a := 0xE0, pc := 1 } ∧
    (boot [(0, 0x43), (3, 0xE0)]).memRead 3 ≠ (boot [(0, 0x43)]).memRead 3 := ⟨rfl, by decide⟩

/-- LDA changes A; ADD changes B, CF and ZF; OUT changes OUT; HLT changes RUN. -/
theorem witness_StepChangesOnlyNamedFields :
    (after (boot [(0, 0x10)])).map (·.a) = some 0x10 ∧
    (after { boot [(0, 0x2F), (15, 1)] with a := 255 }).map (fun t => (t.b, t.cf, t.zf)) = some (1, true, true) ∧
    (after { boot [(0, 0xE0)] with a := 42 }).map (·.out) = some 42 ∧
    (after (boot [(0, 0xF0)])).map (·.run) = some .halted := by decide

/-- A taken jump to 15 and, at PC = 15, a step that takes none. -/
theorem witness_StepSetsPc :
    ((boot [(0, 0x6F)]).run = .running ∧ step (boot [(0, 0x6F)]) = .next { boot [(0, 0x6F)] with pc := 15 } ∧
      (boot [(0, 0x6F)]).TakesJump 15) ∧
    (({ State.reset with pc := 15 } : State).run = .running ∧ step { State.reset with pc := 15 } = .next State.reset ∧
      ∀ n, ¬ ({ State.reset with pc := 15 } : State).TakesJump n) :=
  ⟨⟨rfl, rfl, .inl (by decide)⟩, rfl, rfl, by unfold State.TakesJump; decide⟩

/-- At PC = 2 (STA-3), and at PC = 15, where the next fetch is from cell 0. -/
theorem witness_StoredByteRunsNext :
    (({ boot [(2, 0x43)] with pc := 2, a := 0xF0 } : State).nextInstr = some (.sta 3) ∧
      (3 : Addr).toNat = (({ boot [(2, 0x43)] with pc := 2, a := 0xF0 } : State).pc.toNat + 1) % 16) ∧
    (({ boot [(15, 0x40)] with pc := 15 } : State).nextInstr = some (.sta 0) ∧
      (0 : Addr).toNat = (({ boot [(15, 0x40)] with pc := 15 } : State).pc.toNat + 1) % 16) := by decide

theorem witness_SubOverflowStepAnswers :
    ({ boot [(0, 0x3C), (12, 128)] with a := 128 } : State).nextInstr = some (.sub 12) ∧
    256 ≤ ({ boot [(0, 0x3C), (12, 128)] with a := 128 } : State).sumWith 12 := by decide

/-- A state other than reset that meets the invariant. -/
theorem witness_inv : (boot [(0, 0x43), (15, 0xFF)]).Inv :=
  ⟨by decide, by decide, rfl, rfl, by decide⟩

theorem witness_StepKeepsInvariant :
    (boot [(0, 0x43), (15, 0xFF)]).Inv ∧
    step (boot [(0, 0x43), (15, 0xFF)]) = .next { boot [(0, 0x43), (15, 0xFF)] with pc := 1 } := ⟨witness_inv, rfl⟩

theorem witness_EveryRunGoesOn : (boot [(0, 0x43), (15, 0xFF)]).Inv := witness_inv

/-- A step of ADD from a state with both flags true, whose own sum sets neither. -/
theorem witness_FlagsAreSticky :
    RunsTo 1 { boot [(0, 0x2F), (15, 1)] with a := 1, cf := true, zf := true }
      { boot [(0, 0x2F), (15, 1)] with a := 2, b := 1, cf := true, zf := true, pc := 1 } ∧
    ({ boot [(0, 0x2F), (15, 1)] with a := 1, cf := true, zf := true } : State).cf = true ∧
    ({ boot [(0, 0x2F), (15, 1)] with a := 1, cf := true, zf := true } : State).zf = true := ⟨rfl, rfl, rfl⟩

/-- A run whose first step is an ADD that carries to zero, and whose second is an ADD that does neither. -/
theorem witness_CarryRecordsSomeAdd :
    RunsTo 2 { boot [(0, 0x2F), (1, 0x2F), (15, 1)] with a := 255 }
      { boot [(0, 0x2F), (1, 0x2F), (15, 1)] with a := 1, b := 1, cf := true, zf := true, pc := 2 } := rfl

/-- A SUB of zero to zero sets ZF, and a NOP follows. -/
theorem witness_ZeroRecordsSomeZeroResult :
    RunsTo 2 (boot [(0, 0x3C)]) { boot [(0, 0x3C)] with zf := true, pc := 2 } := rfl

theorem witness_IrAndAluAreDead :
    RunsTo 1 { boot [(0, 0x5F)] with ir := 3, alu := 4 } { boot [(0, 0x5F)] with ir := 3, alu := 4, a := 15, pc := 1 } :=
  rfl

theorem witness_OutAndOldBAreNeverRead :
    RunsTo 1 { boot [(0, 0x2F), (15, 2)] with a := 1, b := 99, out := 7 }
      { boot [(0, 0x2F), (15, 2)] with a := 3, b := 2, out := 7, pc := 1 } := rfl

/-- From PC = 15, one step without a jump. -/
theorem witness_PcCountsStepsModSixteen :
    ({ State.reset with pc := 15 } : State).pc.toNat ≤ 15 ∧
    RunsTo 1 { State.reset with pc := 15 } State.reset ∧
    ∀ j < 1, ∀ u, RunsTo j { State.reset with pc := 15 } u → u.run = .running ∧ ∀ n, ¬ u.TakesJump n := by
  refine ⟨by decide, rfl, fun j hj u hu => ?_⟩
  obtain rfl : j = 0 := by omega
  obtain rfl := runsTo_zero.1 hu
  exact ⟨rfl, by unfold State.TakesJump; decide⟩

/-- One step after a NOP, OUT holding 42. -/
theorem witness_ReportsRepeatUntilNextOut :
    (∀ j ≤ 1, ∀ u, RunsTo j { State.reset with out := 42 } u → ∀ n, u.nextInstr ≠ some (.out n)) ∧
    RunsTo 1 { State.reset with out := 42 } { State.reset with out := 42, pc := 1 } ∧
    cycle { State.reset with out := 42, pc := 1 } =
      .next ⟨{ State.reset with out := 42, pc := 2 }, .ran 42, some 42, none⟩ := by
  refine ⟨fun j hj u hu => ?_, rfl, rfl⟩
  rcases (show j = 0 ∨ j = 1 by omega) with rfl | rfl
  · obtain rfl := runsTo_zero.1 hu
    decide
  · obtain rfl := hu.unique (show RunsTo 1 _ { State.reset with out := 42, pc := 1 } from rfl)
    decide

/-- A machine that jumps to itself for ever is unfailed and runs no SUB. -/
theorem witness_RunWithoutSubOverflowIsSafe :
    (boot [(0, 0x60)]).failed = false ∧
    ∀ (k : Nat) (u : State) (n : Addr), RunsTo k (boot [(0, 0x60)]) u → u.nextInstr = some (.sub n) →
      u.sumWith n ≤ 255 := by
  have stays : ∀ k u, RunsTo k (boot [(0, 0x60)]) u → u = boot [(0, 0x60)] := by
    intro k
    induction k with
    | zero => exact fun u h => (runsTo_zero.1 h).symm
    | succ k ih =>
      intro u h
      obtain ⟨v, h1, h2⟩ := runsTo_last.1 h
      obtain rfl := ih v h1
      have e := h2.symm.trans (show step (boot [(0, 0x60)]) = .next (boot [(0, 0x60)]) from rfl)
      injection e
  refine ⟨by decide, fun k u n h hn => ?_⟩
  obtain rfl := stays k u h
  exact absurd hn (by revert n; decide)

theorem witness_CanonicalMemoriesEqualByCells :
    Memory.wf [(3, 1)] = true ∧ Memory.wf (Memory.write [(3, 1)] 3 1) = true ∧
    ∀ a : Addr, Memory.read [(3, 1)] a.toNat = Memory.read (Memory.write [(3, 1)] 3 1) a.toNat := by decide

end Sys2Proof.Tests
end

section
/-! Construction loads the image: what each cell reads as (10_state.md R27). -/

namespace Sys2Proof.Machine

/-- Every address is within the image, so a lookup by address never answers the default. -/
theorem image_toList_getD (image : Image) (a : Addr) (d : Byte) :
    image.toList.getD a.toNat d = image.get a.toFin := by
  have inRange : a.toNat < image.toList.length := by simpa using a.isLt
  rw [List.getD_eq_getElem _ _ inRange, Vector.getElem_toList]
  rfl

/-- Settles O30: construction lays the image's bytes out from address 0, and no address is past the last of them. -/
theorem constructionLoadsImage : Obligations.ConstructionLoadsImage := by
  intro image a
  calc (State.construct image).memRead a
      = (Memory.ofBytes 0 image.toList).read a.toNat := rfl
    _ = image.toList.getD (a.toNat - 0) unlistedByte := Memory.read_ofBytes 0 _ _ (Nat.zero_le _)
    _ = image.get a.toFin := image_toList_getD image a unlistedByte

end Sys2Proof.Machine
end

section
/-! The opcode map by nibbles: a byte is its opcode nibble followed by its operand nibble (30_encoding.md R51, R53). -/

namespace Sys2Proof

/-! ### The two fields of a byte -/

@[simp] theorem opcodeField_append (op n : Nibble) : opcodeField (op ++ n) = op :=
  BitVec.extractLsb'_append_eq_left

@[simp] theorem operandField_append (op n : Nibble) : operandField (op ++ n) = n :=
  BitVec.extractLsb'_append_eq_right

theorem opcodeField_toNat (b : Byte) : (opcodeField b).toNat = b.toNat / 16 := by
  have inByte : b.toNat / 16 < 16 := by omega
  rw [opcodeField, BitVec.extractLsb'_toNat, Nat.shiftRight_eq_div_pow]
  exact Nat.mod_eq_of_lt inByte

theorem operandField_toNat (b : Byte) : (operandField b).toNat = b.toNat % 16 := by
  rw [operandField, BitVec.extractLsb'_toNat, Nat.shiftRight_zero]

/-! ### The opcode map keeps both fields -/

/-- A nibble is its four bits. -/
theorem nibble_eq_of_bits {x y : Nibble} (h3 : x[3] = y[3]) (h2 : x[2] = y[2]) (h1 : x[1] = y[1])
    (h0 : x[0] = y[0]) : x = y := by
  ext i hi
  match i with
  | 0 => exact h0
  | 1 => exact h1
  | 2 => exact h2
  | 3 => exact h3

@[simp] theorem instrOf_opcode (op n : Nibble) : (instrOf op n).opcode = op := by
  unfold instrOf
  split
  all_goals
    next h3 h2 h1 h0 => apply nibble_eq_of_bits <;> simp [Instr.opcode, h3, h2, h1, h0]

@[simp] theorem instrOf_operand (op n : Nibble) : (instrOf op n).operand = n := by
  unfold instrOf
  split <;> rfl

theorem decode_opcode (b : Byte) : (decode b).opcode = opcodeField b :=
  instrOf_opcode _ _

theorem decode_operand (b : Byte) : (decode b).operand = operandField b :=
  instrOf_operand _ _

/-- The byte `oooo nnnn` spells the instruction of row `oooo` with operand `nnnn`. -/
theorem decode_append (op n : Nibble) : decode (op ++ n) = instrOf op n := by
  rw [decode, opcodeField_append, operandField_append]

theorem Instr.wf_eq_true (i : Instr) : i.wf = true := by
  cases i <;> rfl

/-- Settles O2: the byte splits into its nibbles (`decode_append`), and `instrOf` at a literal opcode is its row. -/
theorem opcodeMapRowsDecode : Obligations.OpcodeMapRowsDecode := fun n =>
  ⟨decode_append 0b0000 n, decode_append 0b0001 n, decode_append 0b0010 n, decode_append 0b0011 n,
   decode_append 0b0100 n, decode_append 0b0101 n, decode_append 0b0110 n, decode_append 0b0111 n,
   decode_append 0b1000 n, decode_append 0b1001 n, decode_append 0b1010 n, decode_append 0b1011 n,
   decode_append 0b1100 n, decode_append 0b1101 n, decode_append 0b1110 n, decode_append 0b1111 n⟩

/-- Settles O4: the opcode map keeps both fields, and the fields are the quotient and the remainder by 16. -/
theorem decodeReadsTheTwoNibbles : Obligations.DecodeReadsTheTwoNibbles := by
  intro b
  rw [decode_opcode, decode_operand]
  exact ⟨opcodeField_toNat b, operandField_toNat b⟩

/-- Settles O5: no instruction is ill-formed, and every meaning answers its `effect`. -/
theorem everyByteExecutes : Obligations.EveryByteExecutes := fun b s =>
  ⟨(decode b).wf_eq_true, Machine.effect (decode b) s, Machine.exec_eq_effect (decode b) s⟩

/-- Settles O7: the rows of the map give the decoding, and the effect of NOP and of each unassigned instruction is the
state itself. -/
theorem unassignedOpcodesActAsNop : Obligations.UnassignedOpcodesActAsNop := by
  intro n s
  obtain ⟨-, -, -, -, -, -, -, -, -, row9, rowA, rowB, rowC, rowD, -, -⟩ := opcodeMapRowsDecode n
  exact ⟨Machine.exec_eq_effect (.nop n) s,
    ⟨row9, Machine.exec_eq_effect (.unassigned9 n) s⟩,
    ⟨rowA, Machine.exec_eq_effect (.unassignedA n) s⟩,
    ⟨rowB, Machine.exec_eq_effect (.unassignedB n) s⟩,
    ⟨rowC, Machine.exec_eq_effect (.unassignedC n) s⟩,
    ⟨rowD, Machine.exec_eq_effect (.unassignedD n) s⟩⟩

end Sys2Proof
end

section
/-! A running step is fetch, advance, decode and execute, in this order (40_cycle_engine.md R62 to R66). -/

namespace Sys2Proof.Machine

/-- The advance in the words of R64: PC + 1 as a number where it is at most 15, and 0 otherwise. -/
theorem nextPc_eq_ofNat (pc : Byte) :
    nextPc pc = if pc.toNat + 1 ≤ 15 then BitVec.ofNat 8 (pc.toNat + 1) else 0 := by
  unfold nextPc
  split
  next above => rw [if_neg (Nat.not_le.2 above)]
  next inRange =>
    rw [if_pos (Nat.not_lt.1 inRange), BitVec.ofNat_add, BitVec.ofNat_toNat, BitVec.setWidth_eq]
    rfl

/-- Settles O19: a running state with PC in range runs the byte it fetches (`step_of_nextInstr`), and what it runs it on
is the advance of R64. -/
theorem stepRunsDecodedInstruction : Obligations.StepRunsDecodedInstruction := by
  intro s running inRange
  have runs : s.nextInstr = some (decode (s.memRead (s.pc.setWidth 4))) :=
    State.nextInstr_eq_some.2 ⟨running, inRange, rfl⟩
  calc step s
      = .next (effect (decode (s.memRead (s.pc.setWidth 4))) s.advancePc) := step_of_nextInstr runs
    _ = exec (decode (s.memRead (s.pc.setWidth 4))) s.advancePc := (exec_eq_effect _ _).symm
    _ = exec (decode (s.memRead (s.pc.setWidth 4))) _ := by rw [State.advancePc_eq, nextPc_eq_ofNat]

end Sys2Proof.Machine
end

section
/-! Data movement: what NOP, LDA, STA and LDI write, and that they write nothing else (41_data_movement.md). -/

namespace Sys2Proof.Machine

/-- The cell just stored reads as the stored byte. -/
theorem State.memRead_memWrite_same (s : State) (n : Addr) (v : Byte) : (s.memWrite n v).memRead n = v := by
  rw [State.memRead_memWrite, if_pos rfl]

/-- A store leaves every other cell as it was. -/
theorem State.memRead_memWrite_other (s : State) {n c : Addr} (v : Byte) (h : c ≠ n) :
    (s.memWrite n v).memRead c = s.memRead c := by
  rw [State.memRead_memWrite, if_neg h]

/-- Settles O9: the state STA answers is `s.memWrite n s.a`, so the laws of a store say what each cell reads as, and
`memWrite_eq` that no other field differs. -/
theorem staStoresAccumulator : Obligations.StaStoresAccumulator := fun n s =>
  ⟨decode_append 0b0100 n, s.memWrite n s.a, exec_eq_effect (.sta n) s,
    s.memRead_memWrite_same n s.a, fun _ other => s.memRead_memWrite_other s.a other, s.memWrite_eq n s.a⟩

/-- Settles O6: row `0000` of the opcode map is NOP, whose effect is the state itself. -/
theorem nopChangesNothing : Obligations.NopChangesNothing := fun n s =>
  ⟨decode_append 0b0000 n, exec_eq_effect (.nop n) s⟩

/-- Settles O8: row `0001` of the opcode map is LDA, whose effect puts the addressed byte in A. -/
theorem ldaLoadsAccumulator : Obligations.LdaLoadsAccumulator := fun n s =>
  ⟨decode_append 0b0001 n, exec_eq_effect (.lda n) s⟩

/-- Settles O10: row `0101` of the opcode map is LDI, and the immediate operand it puts in A is the number `n`
(`immediateOperand_eq`), never sign-extended. -/
theorem ldiLoadsLiteral : Obligations.LdiLoadsLiteral := by
  intro n s
  refine ⟨decode_append 0b0101 n, ?_⟩
  rw [← immediateOperand_eq]
  exact exec_eq_effect (.ldi n) s

end Sys2Proof.Machine
end

section
/-! Arithmetic: ADD writes A, B and both sticky flags from one exact sum (42_arithmetic.md R82, R83). -/

namespace Sys2Proof.Machine

/-- `State.sumWith`, in which the statements speak, is the exact sum that the meanings of ADD and SUB form. -/
theorem State.exactSum_memRead (s : State) (n : Addr) : exactSum s.a (s.memRead n) = s.sumWith n := rfl

/-- The effect of ADD in terms of its one sum: A wraps it, and each flag is or-ed with its test of the unwrapped sum. -/
theorem effect_add (n : Addr) (s : State) :
    effect (.add n) s = { s with
      a := wrapByte (s.sumWith n), b := s.memRead n
      cf := s.cf || carryOut (s.sumWith n)
      zf := s.zf || zeroSum (s.sumWith n) } := by
  rw [effect, State.exactSum_memRead]

/-- Settles O12: row `0010` of the opcode map is ADD, and `wrapByte`, `carryOut` and `zeroSum` of its sum (`effect_add`)
are the byte and the two tests that R82 names. -/
theorem addSumsAndSetsFlags : Obligations.AddSumsAndSetsFlags := by
  intro n s
  refine ⟨decode_append 0b0010 n, ?_⟩
  rw [exec_eq_effect, effect_add, wrapByte, carryOut, zeroSum]

end Sys2Proof.Machine
end

section
/-! Control transfer: a taken jump sets PC to the absolute operand, and no jump writes anything else
(43_control_transfer.md R89 to R91, R95). -/

namespace Sys2Proof.Machine

/-- Settles O15: row `0110` of the opcode map is JMP, and the target its effect puts in PC is the number `n`
(`jumpTarget_eq`), neither scaled nor relative to PC. -/
theorem jmpSetsPc : Obligations.JmpSetsPc := by
  intro n s
  refine ⟨decode_append 0b0110 n, ?_⟩
  rw [← jumpTarget_eq]
  exact exec_eq_effect (.jmp n) s

/-- `jumpIf`, which JC and JZ share, by the number that a taken jump puts in PC. -/
theorem State.jumpIf_eq_ofNat (s : State) (c : Bool) (n : Addr) :
    s.jumpIf c n = { s with pc := if c = true then BitVec.ofNat 8 n.toNat else s.pc } := by
  rw [State.jumpIf_eq, jumpTarget_eq]

/-- Settles O16: row `0111` of the opcode map is JC, which is `jumpIf` on CF alone. -/
theorem jcJumpsOnCarryOnly : Obligations.JcJumpsOnCarryOnly := by
  intro n s
  refine ⟨decode_append 0b0111 n, ?_⟩
  calc exec (.jc n) s
      = .next (s.jumpIf s.cf n) := rfl
    _ = .next _ := by rw [State.jumpIf_eq_ofNat]

/-- Settles O17: row `1000` of the opcode map is JZ, which is `jumpIf` on ZF alone. -/
theorem jzJumpsOnZeroOnly : Obligations.JzJumpsOnZeroOnly := by
  intro n s
  refine ⟨decode_append 0b1000 n, ?_⟩
  calc exec (.jz n) s
      = .next (s.jumpIf s.zf n) := rfl
    _ = .next _ := by rw [State.jumpIf_eq_ofNat]

end Sys2Proof.Machine
end

section
/-! Decoding and encoding undo each other (30_encoding.md R51 to R61). -/

namespace Sys2Proof

/-- A byte is its two nibbles. -/
theorem byte_eq_of_fields {x y : Byte} (hop : opcodeField x = opcodeField y)
    (hn : operandField x = operandField y) : x = y := by
  have high : x.toNat / 16 = y.toNat / 16 := by rw [← opcodeField_toNat, ← opcodeField_toNat, hop]
  have low : x.toNat % 16 = y.toNat % 16 := by rw [← operandField_toNat, ← operandField_toNat, hn]
  exact BitVec.eq_of_toNat_eq (by omega)

@[simp] theorem opcodeField_encode (i : Instr) : opcodeField (encode i) = i.opcode :=
  (Laws.EncodedFields.fields_of_nibbles _ _).1

@[simp] theorem operandField_encode (i : Instr) : operandField (encode i) = i.operand :=
  (Laws.EncodedFields.fields_of_nibbles _ _).2

/-- The opcode map at an instruction's own opcode and operand is that instruction: no row is in the map twice. -/
theorem instrOf_opcode_operand (i : Instr) : instrOf i.opcode i.operand = i := by
  cases i <;> simp [instrOf, Instr.opcode, Instr.operand]

theorem decode_encode (i : Instr) : decode (encode i) = i := by
  rw [decode, opcodeField_encode, operandField_encode, instrOf_opcode_operand]

theorem encode_decode (b : Byte) : encode (decode b) = b :=
  byte_eq_of_fields (by rw [opcodeField_encode, decode_opcode]) (by rw [operandField_encode, decode_operand])

/-- Settles O1: `decode` is the opcode map at the two fields of the byte, `encode` puts them back, and the map loses
neither. -/
theorem decodeAndEncodeAreInverse : Obligations.DecodeAndEncodeAreInverse :=
  ⟨decode_encode, encode_decode⟩

/-- Settles O3: each word is its row of the opcode map at the word's low nibble. -/
theorem writtenOutWordsDecode : Obligations.WrittenOutWordsDecode :=
  ⟨decode_append 0x0 7, decode_append 0x1 14, decode_append 0x2 15, decode_append 0x3 12, decode_append 0x4 3,
   decode_append 0x5 10, decode_append 0x6 1, decode_append 0x7 5, decode_append 0x8 2, decode_append 0xC 3,
   decode_append 0xE 7, decode_append 0xF 15⟩

end Sys2Proof
end

section
/-! Canonical memories that read alike are equal (20_memory.md R35). -/

namespace Sys2Proof.Machine

/-- A canonical memory from `lo` up lists no cell below `lo`. -/
theorem Memory.read_below_wfFrom {m : Memory} {lo c : Nat} (h : m.wfFrom lo = true) (hc : c < lo) :
    m.read c = unlistedByte := by
  induction m generalizing lo with
  | nil => rfl
  | cons cell m ih =>
    obtain ⟨k, v⟩ := cell
    obtain ⟨hlo, -, -, hm⟩ := (Memory.wfFrom_cons ..).1 h
    rw [Memory.read_cons, if_neg (by omega)]
    exact ih hm (by omega)

theorem Memory.wfFrom_head {lo k : Nat} {v : Byte} {m : Memory} (h : Memory.wfFrom lo ((k, v) :: m) = true) :
    Memory.wfFrom k ((k, v) :: m) = true := by
  obtain ⟨-, tail⟩ := (Memory.wfFrom_cons ..).1 h
  exact (Memory.wfFrom_cons ..).2 ⟨le_rfl, tail⟩

/-- The first listed cell does not read as 0x00, so a canonical memory that reads alike starts no later. -/
theorem Memory.le_head_of_read {m m' : Memory} {lo lo' k : Nat} {v : Byte}
    (h : Memory.wfFrom lo ((k, v) :: m) = true) (h' : m'.wfFrom lo' = true)
    (alike : ∀ c < 16, Memory.read ((k, v) :: m) c = m'.read c) : lo' ≤ k := by
  obtain ⟨-, h16, hv, -⟩ := (Memory.wfFrom_cons ..).1 h
  by_contra below
  have listed : m'.read k = v := by rw [← alike k h16, Memory.read_cons, if_pos rfl]
  exact hv (listed ▸ Memory.read_below_wfFrom h' (by omega))

/-- Canonical memories that read alike are one list: its head is the first cell that does not read as 0x00, and below
the head the tails read as 0x00 both. -/
theorem Memory.wfFrom_ext {m m' : Memory} {lo lo' : Nat} (h : m.wfFrom lo = true) (h' : m'.wfFrom lo' = true)
    (alike : ∀ c < 16, m.read c = m'.read c) : m = m' := by
  induction m generalizing m' lo lo' with
  | nil =>
    cases m' with
    | nil => rfl
    | cons cell' m' =>
      have := Memory.le_head_of_read h' (m' := []) (lo' := 16) rfl fun c hc => (alike c hc).symm
      obtain ⟨-, h16, -⟩ := (Memory.wfFrom_cons ..).1 h'
      omega
  | cons cell m ih =>
    obtain ⟨k, v⟩ := cell
    obtain ⟨-, h16, -, hm⟩ := (Memory.wfFrom_cons ..).1 h
    cases m' with
    | nil =>
      have := Memory.le_head_of_read h (m' := []) (lo' := 16) rfl alike
      omega
    | cons cell' m' =>
      obtain ⟨k', v'⟩ := cell'
      obtain ⟨-, -, -, hm'⟩ := (Memory.wfFrom_cons ..).1 h'
      obtain rfl : k = k' := le_antisymm
        (Memory.le_head_of_read h' (Memory.wfFrom_head h) fun c hc => (alike c hc).symm)
        (Memory.le_head_of_read h (Memory.wfFrom_head h') alike)
      obtain rfl : v = v' := by simpa [Memory.read_cons] using alike k h16
      have tails : ∀ c < 16, Memory.read m c = Memory.read m' c := by
        intro c hc
        by_cases hck : c ≤ k
        · rw [Memory.read_below_wfFrom hm (by omega), Memory.read_below_wfFrom hm' (by omega)]
        · simpa [Memory.read_cons, show k ≠ c by omega] using alike c hc
      rw [ih hm hm' tails]

/-- Settles O44: the canonical form from address 0 up is one for each reading of the 16 cells (`wfFrom_ext`). -/
theorem canonicalMemoriesEqualByCells : Obligations.CanonicalMemoriesEqualByCells :=
  fun _ _ h h' alike => Memory.wfFrom_ext h h' fun c hc => alike (BitVec.ofFin ⟨c, hc⟩)

end Sys2Proof.Machine
end

section
/-! What an instruction writes, field by field: one lemma per field of the state, over all instructions
(40_cycle_engine.md R74). -/

namespace Sys2Proof.Machine

/-! ### SUB: raise or complete (42_arithmetic.md R84, R85) -/

theorem policy_eq_wrap_of_ne_fault {p : SubOverflowPolicy} (h : p ≠ .fault) : p = .wrap := by
  cases p with
  | fault => exact absurd rfl h
  | wrap => rfl

theorem effect_sub_raises {n : Addr} {s : State} (exceeds : 256 ≤ s.sumWith n)
    (faults : Config.subOverflowPolicy = .fault) :
    effect (.sub n) s = { s with b := s.memRead n, run := .faulted .subOverflow } := by
  obtain ⟨-, -, raises⟩ | ⟨fits | wraps, -⟩ := s.subUnder_cases Config.subOverflowPolicy n
  · exact raises
  · exact absurd exceeds (Nat.not_le.2 fits)
  · exact absurd (faults.symm.trans wraps) (by decide)

theorem effect_sub_completes {n : Addr} {s : State}
    (completes : s.sumWith n < 256 ∨ Config.subOverflowPolicy = .wrap) :
    effect (.sub n) s = { s with
      a := wrapByte (s.sumWith n), b := s.memRead n, zf := s.zf || zeroSum (s.sumWith n) } := by
  obtain ⟨exceeds, faults, -⟩ | ⟨-, result⟩ := s.subUnder_cases Config.subOverflowPolicy n
  · obtain fits | wraps := completes
    · exact absurd exceeds (Nat.not_le.2 fits)
    · exact absurd (faults.symm.trans wraps) (by decide)
  · exact result

/-- A SUB raises or completes. -/
theorem sub_raises_or_completes (n : Addr) (s : State) :
    (256 ≤ s.sumWith n ∧ Config.subOverflowPolicy = .fault) ∨
      (s.sumWith n < 256 ∨ Config.subOverflowPolicy = .wrap) := by
  by_cases exceeds : 256 ≤ s.sumWith n
  · by_cases faults : Config.subOverflowPolicy = .fault
    · exact .inl ⟨exceeds, faults⟩
    · exact .inr (.inr (policy_eq_wrap_of_ne_fault faults))
  · exact .inr (.inl (Nat.not_le.1 exceeds))

/-- The result of an addition of two bytes is 0 exactly at the sums 0 and 256. -/
theorem zeroSum_sumWith (s : State) (n : Addr) :
    zeroSum (s.sumWith n) = true ↔ s.sumWith n = 0 ∨ s.sumWith n = 256 := by
  have bound : s.sumWith n < 511 := exactSum_lt s.a (s.memRead n)
  rw [zeroSum, decide_eq_true_iff]
  omega

/-! ### A, B, OUT, IR and ALU -/

theorem effect_a_ne {i : Instr} {s : State} (h : (effect i s).a ≠ s.a) :
    ∃ n, i = .lda n ∨ i = .add n ∨ i = .sub n ∨ i = .ldi n := by
  cases i with
  | lda n => exact ⟨n, .inl rfl⟩
  | add n => exact ⟨n, .inr (.inl rfl)⟩
  | sub n => exact ⟨n, .inr (.inr (.inl rfl))⟩
  | ldi n => exact ⟨n, .inr (.inr (.inr rfl))⟩
  | _ => exact absurd rfl h

theorem effect_b_ne {i : Instr} {s : State} (h : (effect i s).b ≠ s.b) : ∃ n, i = .add n ∨ i = .sub n := by
  cases i with
  | add n => exact ⟨n, .inl rfl⟩
  | sub n => exact ⟨n, .inr rfl⟩
  | _ => exact absurd rfl h

theorem effect_out_ne {i : Instr} {s : State} (h : (effect i s).out ≠ s.out) : ∃ n, i = .out n := by
  cases i with
  | out n => exact ⟨n, rfl⟩
  | sub n => exact absurd (s.subUnder_out _ n) h
  | _ => exact absurd rfl h

theorem effect_ir (i : Instr) (s : State) : (effect i s).ir = s.ir := by
  cases i with
  | sub n => exact s.subUnder_ir _ n
  | _ => rfl

theorem effect_alu (i : Instr) (s : State) : (effect i s).alu = s.alu := by
  cases i with
  | sub n => exact s.subUnder_alu _ n
  | _ => rfl

/-! ### The flags -/

/-- CF after an instruction: as it was, or set by an ADD whose sum exceeds 255 (10_state.md R21, R23). -/
theorem effect_cf (i : Instr) (s : State) :
    (effect i s).cf = true ↔ s.cf = true ∨ ∃ n, i = .add n ∧ 256 ≤ s.sumWith n := by
  cases i with
  | add n => simp [effect_add, carryOut]
  | sub n => simp [effect]
  | _ => simp [effect, State.memWrite_eq]

/-- ZF after an instruction: as it was, or set by an ADD or a completing SUB with result 0 (10_state.md R22, R23). -/
theorem effect_zf (i : Instr) (s : State) :
    (effect i s).zf = true ↔ s.zf = true ∨
      ∃ n, (i = .add n ∧ (s.sumWith n = 0 ∨ s.sumWith n = 256)) ∨
        (i = .sub n ∧ (s.sumWith n = 0 ∨ (s.sumWith n = 256 ∧ Config.subOverflowPolicy = .wrap))) := by
  cases i with
  | add n => simp [effect_add, zeroSum_sumWith]
  | sub n =>
    obtain ⟨exceeds, faults⟩ | completes := sub_raises_or_completes n s
    · have positive : s.sumWith n ≠ 0 := by omega
      simp [effect_sub_raises exceeds faults, faults, positive]
    · have wraps : s.sumWith n = 256 → Config.subOverflowPolicy = .wrap :=
        fun h => completes.resolve_left (by omega)
      simp [effect_sub_completes completes, zeroSum_sumWith, and_iff_left_of_imp wraps]
  | _ => simp [effect, State.memWrite_eq]

theorem effect_cf_ne {i : Instr} {s : State} (h : (effect i s).cf ≠ s.cf) : ∃ n, i = .add n := by
  cases i with
  | add n => exact ⟨n, rfl⟩
  | sub n => exact absurd (s.subUnder_cf _ n) h
  | _ => exact absurd rfl h

theorem effect_zf_ne {i : Instr} {s : State} (h : (effect i s).zf ≠ s.zf) : ∃ n, i = .add n ∨ i = .sub n := by
  cases i with
  | add n => exact ⟨n, .inl rfl⟩
  | sub n => exact ⟨n, .inr rfl⟩
  | _ => exact absurd rfl h

/-! ### Memory -/

/-- A cell that an instruction changes is the one its STA names, and it then holds A. -/
theorem effect_memRead_ne {i : Instr} {s : State} {c : Addr} (h : (effect i s).memRead c ≠ s.memRead c) :
    i = .sta c ∧ (effect i s).memRead c = s.a := by
  cases i with
  | sta n =>
    obtain rfl : c = n := by
      by_contra other
      exact h (s.memRead_memWrite_other s.a other)
    exact ⟨rfl, s.memRead_memWrite_same c s.a⟩
  | sub n => exact absurd (State.memRead_congr (s.subUnder_mem _ n) c) h
  | _ => exact absurd rfl h

theorem effect_mem_wf {i : Instr} {s : State} (h : s.mem.wf = true) : (effect i s).mem.wf = true := by
  cases i with
  | sta n => exact State.memWrite_wf n s.a h
  | sub n => exact (congrArg Memory.wf (s.subUnder_mem _ n)).trans h
  | _ => exact h

/-! ### PC -/

/-- The target of the jump that an instruction takes in a state, if it takes one (43_control_transfer.md R89 to R91). -/
def takenTarget (i : Instr) (s : State) : Option Addr :=
  match i with
  | .jmp n => some n
  | .jc n => if s.cf then some n else none
  | .jz n => if s.zf then some n else none
  | _ => none

theorem takenTarget_eq_some {i : Instr} {s : State} {n : Addr} :
    takenTarget i s = some n ↔ i = .jmp n ∨ (i = .jc n ∧ s.cf = true) ∨ (i = .jz n ∧ s.zf = true) := by
  cases i <;> simp [takenTarget, and_comm]

theorem effect_pc_of_taken {i : Instr} {s : State} {n : Addr} (h : takenTarget i s = some n) :
    (effect i s).pc = jumpTarget n := by
  obtain rfl | ⟨rfl, flag⟩ | ⟨rfl, flag⟩ := takenTarget_eq_some.1 h
  · rfl
  · simp [effect, flag]
  · simp [effect, flag]

theorem effect_pc_of_not_taken {i : Instr} {s : State} (h : takenTarget i s = none) : (effect i s).pc = s.pc := by
  cases i with
  | jmp n => cases h
  | jc n => simp_all [takenTarget, effect]
  | jz n => simp_all [takenTarget, effect]
  | sub n => exact s.subUnder_pc _ n
  | _ => rfl

theorem effect_pc_le {i : Instr} {s : State} (h : s.pc.toNat ≤ 15) : (effect i s).pc.toNat ≤ 15 := by
  cases taken : takenTarget i s with
  | none => rwa [effect_pc_of_not_taken taken]
  | some n =>
    rw [effect_pc_of_taken taken, jumpTarget_toNat]
    omega

/-! ### RUN -/

/-- RUN after an instruction: as it was, halted by HLT, or faulted by a SUB that raises. -/
theorem effect_run_cases (i : Instr) (s : State) :
    (effect i s).run = s.run ∨ (∃ n, i = .hlt n ∧ (effect i s).run = .halted) ∨
      (∃ n, i = .sub n ∧ 256 ≤ s.sumWith n ∧ Config.subOverflowPolicy = .fault ∧
        (effect i s).run = .faulted .subOverflow) := by
  cases i with
  | hlt n => exact .inr (.inl ⟨n, rfl, rfl⟩)
  | sub n =>
    obtain ⟨exceeds, faults⟩ | completes := sub_raises_or_completes n s
    · exact .inr (.inr ⟨n, rfl, exceeds, faults, by rw [effect_sub_raises exceeds faults]⟩)
    · exact .inl (by rw [effect_sub_completes completes])
  | _ => exact .inl rfl

theorem effect_run_ne {i : Instr} {s : State} (h : (effect i s).run ≠ s.run) : ∃ n, i = .hlt n ∨ i = .sub n := by
  obtain same | ⟨n, rfl, -⟩ | ⟨n, rfl, -⟩ := effect_run_cases i s
  · exact absurd same h
  · exact ⟨n, .inl rfl⟩
  · exact ⟨n, .inr rfl⟩

/-! ### The instructions of this family -/

/-- Settles O13: row `0011` of the opcode map is SUB, and a sum of at most 255 completes and is its own remainder. -/
theorem subWithinRangeAdds : Obligations.SubWithinRangeAdds := by
  intro n s fits
  refine ⟨decode_append 0b0011 n, ?_⟩
  have inByte : s.sumWith n % 256 = s.sumWith n := Nat.mod_eq_of_lt (by omega)
  rw [exec_eq_effect, effect_sub_completes (.inl (by omega)), wrapByte, zeroSum, inByte]

/-- Settles O14: under `fault` the SUB raises, and under the other policy it completes, where a sum from 256 to 510 less
256 is its remainder. -/
theorem subOverflowFollowsPolicy : Obligations.SubOverflowFollowsPolicy := by
  intro n s exceeds
  rw [exec_eq_effect]
  by_cases faults : Config.subOverflowPolicy = .fault
  · rw [if_pos faults, effect_sub_raises exceeds faults]
  · have bound : s.sumWith n < 511 := exactSum_lt s.a (s.memRead n)
    have remainder : s.sumWith n % 256 = s.sumWith n - 256 := by omega
    have zero : (s.sumWith n - 256 = 0) = (s.sumWith n = 256) := propext (by omega)
    rw [if_neg faults, effect_sub_completes (.inr (policy_eq_wrap_of_ne_fault faults)), wrapByte, zeroSum, remainder]
    simp only [zero]

/-- Settles O18: row `1111` of the opcode map is HLT, whose effect writes RUN. -/
theorem hltHalts : Obligations.HltHalts := fun n s =>
  ⟨decode_append 0b1111 n, exec_eq_effect (.hlt n) s⟩

end Sys2Proof.Machine
end

section
/-! What a step changes, from what its instruction changes (40_cycle_engine.md R62 to R74). -/

namespace Sys2Proof.Machine

/-! ### The advanced state, and states in which no step runs an instruction -/

@[simp] theorem State.advancePc_pc (s : State) : s.advancePc.pc = nextPc s.pc := rfl
@[simp] theorem State.advancePc_run (s : State) : s.advancePc.run = s.run := rfl
@[simp] theorem State.advancePc_cf (s : State) : s.advancePc.cf = s.cf := rfl
@[simp] theorem State.advancePc_zf (s : State) : s.advancePc.zf = s.zf := rfl
@[simp] theorem State.sumWith_advancePc (s : State) (n : Addr) : s.advancePc.sumWith n = s.sumWith n := rfl

theorem State.nextInstr_eq_none {s : State} (h : s.run ≠ .running) : s.nextInstr = none := if_neg h

/-- The advance as a number mod 16. -/
theorem nextPc_eq_ofNat_mod {pc : Byte} (h : pc.toNat ≤ 15) : nextPc pc = BitVec.ofNat 8 ((pc.toNat + 1) % 16) := by
  apply BitVec.eq_of_toNat_eq
  rw [nextPc_toNat h, BitVec.toNat_ofNat]
  omega

/-- The address that an exception names is that of the instruction it came from (60_exceptions.md R96). -/
theorem raisedAddress_of_pc {s t : State} (inRange : s.pc.toNat ≤ 15) (h : t.pc = nextPc s.pc) :
    t.raisedAddress = s.pc.toNat := by
  rw [State.raisedAddress, h, nextPc_toNat inRange]
  omega

/-! ### The frame of a step (R74) -/

/-- What a step changes, of all that the advance leaves alone, its instruction changes. -/
theorem step_changes {α : Type} (field : State → α) (kept : ∀ s : State, field s.advancePc = field s) {s t : State}
    (h : step s = .next t) (changed : field t ≠ field s) :
    ∃ i, s.nextInstr = some i ∧ t = effect i s.advancePc ∧ field (effect i s.advancePc) ≠ field s.advancePc := by
  obtain ⟨-, rfl⟩ | ⟨i, runs, rfl⟩ := step_eq_next.1 h
  · exact absurd rfl changed
  · exact ⟨i, runs, rfl, by rwa [kept]⟩

/-- Settles O25: among the instructions only STA changes a cell (`effect_memRead_ne`). -/
theorem onlyStaChangesMemory : Obligations.OnlyStaChangesMemory := by
  intro s t c h changed
  obtain ⟨i, runs, rfl, differs⟩ := step_changes (·.memRead c) (fun _ => rfl) h changed
  obtain ⟨rfl, holds⟩ := effect_memRead_ne differs
  exact ⟨runs, holds⟩

theorem step_out_ne {s t : State} (h : step s = .next t) (changed : t.out ≠ s.out) :
    ∃ n, s.nextInstr = some (.out n) := by
  obtain ⟨i, runs, -, differs⟩ := step_changes (·.out) (fun _ => rfl) h changed
  obtain ⟨n, rfl⟩ := effect_out_ne differs
  exact ⟨n, runs⟩

/-- Settles O26: each field by its frame lemma over the instructions. -/
theorem stepChangesOnlyNamedFields : Obligations.StepChangesOnlyNamedFields := by
  intro s t h
  refine ⟨fun changed => ?_, fun changed => ?_, step_out_ne h, fun changed => ?_, fun changed => ?_, fun changed => ?_⟩
  · obtain ⟨i, runs, -, differs⟩ := step_changes (·.a) (fun _ => rfl) h changed
    simpa [runs] using effect_a_ne differs
  · obtain ⟨i, runs, -, differs⟩ := step_changes (·.b) (fun _ => rfl) h changed
    simpa [runs] using effect_b_ne differs
  · obtain ⟨i, runs, -, differs⟩ := step_changes (·.cf) (fun _ => rfl) h changed
    simpa [runs] using effect_cf_ne differs
  · obtain ⟨i, runs, -, differs⟩ := step_changes (·.zf) (fun _ => rfl) h changed
    simpa [runs] using effect_zf_ne differs
  · obtain ⟨i, runs, -, differs⟩ := step_changes (·.run) (fun _ => rfl) h changed
    simpa [runs] using effect_run_ne differs

/-! ### PC after a step -/

/-- The target of the jump that the instruction takes is the one that the step takes. -/
theorem State.takesJump_iff {s : State} {i : Instr} (runs : s.nextInstr = some i) (n : Addr) :
    s.TakesJump n ↔ takenTarget i s.advancePc = some n := by
  rw [takenTarget_eq_some, State.TakesJump, runs]
  simp

/-- Settles O27: the effect of the instruction on the advanced PC, by whether it takes a jump. -/
theorem stepSetsPc : Obligations.StepSetsPc := by
  intro s t running h
  obtain ⟨ended, -⟩ | ⟨i, runs, rfl⟩ := step_eq_next.1 h
  · exact absurd running ended
  obtain ⟨-, inRange, -⟩ := State.nextInstr_eq_some.1 runs
  constructor
  · intro n jumps
    rw [effect_pc_of_taken ((State.takesJump_iff runs n).1 jumps), jumpTarget_toNat]
  · intro noJump
    have notTaken : takenTarget i s.advancePc = none :=
      Option.eq_none_iff_forall_ne_some.2 fun n taken => noJump n ((State.takesJump_iff runs n).2 taken)
    rw [effect_pc_of_not_taken notTaken, State.advancePc_pc, nextPc_toNat inRange]

/-! ### The flags after a step -/

theorem step_cf {s t : State} (h : step s = .next t) :
    t.cf = true ↔ s.cf = true ∨ ∃ n, s.nextInstr = some (.add n) ∧ 256 ≤ s.sumWith n := by
  obtain ⟨ended, rfl⟩ | ⟨i, runs, rfl⟩ := step_eq_next.1 h
  · simp [State.nextInstr_eq_none ended]
  · simp [runs, effect_cf]

theorem step_zf {s t : State} (h : step s = .next t) :
    t.zf = true ↔ s.zf = true ∨
      ∃ n, (s.nextInstr = some (.add n) ∧ (s.sumWith n = 0 ∨ s.sumWith n = 256)) ∨
        (s.nextInstr = some (.sub n) ∧
          (s.sumWith n = 0 ∨ (s.sumWith n = 256 ∧ Config.subOverflowPolicy = .wrap))) := by
  obtain ⟨ended, rfl⟩ | ⟨i, runs, rfl⟩ := step_eq_next.1 h
  · simp [State.nextInstr_eq_none ended]
  · simp [runs, effect_zf]

/-! ### RUN after a step -/

/-- A step fails only by running a SUB whose sum exceeds 255, under the policy `fault` (60_exceptions.md R97). -/
theorem step_failed {s t : State} (h : step s = .next t) (before : s.failed = false) (after : t.failed = true) :
    Config.subOverflowPolicy = .fault ∧ ∃ n, s.nextInstr = some (.sub n) ∧ 256 ≤ s.sumWith n := by
  obtain ⟨-, rfl⟩ | ⟨i, runs, rfl⟩ := step_eq_next.1 h
  · exact absurd (before.symm.trans after) (by decide)
  obtain same | ⟨n, -, halts⟩ | ⟨n, rfl, exceeds, faults, -⟩ := effect_run_cases i s.advancePc
  · rw [State.failed, same] at after
    exact absurd (before.symm.trans after) (by decide)
  · rw [State.failed, halts] at after
    exact absurd after (by decide)
  · exact ⟨faults, n, runs, exceeds⟩

/-! ### Steps of single instructions -/

/-- Settles O28: the store leaves PC at the address it wrote, so the next fetch reads what was stored. -/
theorem storedByteRunsNext : Obligations.StoredByteRunsNext := by
  intro s n runs atNext
  obtain ⟨running, inRange, -⟩ := State.nextInstr_eq_some.1 runs
  have fetched : (nextPc s.pc).setWidth 4 = n := by
    apply BitVec.eq_of_toNat_eq
    rw [BitVec.toNat_setWidth, nextPc_toNat inRange, atNext]
    omega
  refine ⟨s.advancePc.memWrite n s.a, step_of_nextInstr runs, State.nextInstr_eq_some.2 ⟨running, nextPc_le s.pc, ?_⟩⟩
  calc decode ((s.advancePc.memWrite n s.a).memRead ((nextPc s.pc).setWidth 4))
      = decode ((s.advancePc.memWrite n s.a).memRead n) := by rw [fetched]
    _ = decode s.a := by rw [State.memRead_memWrite_same]

/-- Settles O20: the fetch finds no cell. -/
theorem pcOutOfRangeIsRefused : Obligations.PcOutOfRangeIsRefused := by
  intro s running outOfRange
  have noFetch : s.fetch = none := if_neg (Nat.not_le.2 outOfRange)
  simp [step, cycle, running, State.runInstruction, noFetch]

end Sys2Proof.Machine
end

section
/-! What a step request answers to the host: the cycle result, the report and the raised exception
(40_cycle_engine.md R62, R68 to R70). -/

namespace Sys2Proof.Machine

/-- Settles O22: in a terminal status the step request ends before the fetch. -/
theorem terminalCycleChangesNothing : Obligations.TerminalCycleChangesNothing :=
  ⟨fun s h => by rw [cycle, h], fun s c h => by rw [cycle, h]⟩

theorem step_eq_next_iff_cycle (s t : State) : step s = .next t ↔ ∃ r, cycle s = .next r ∧ r.state = t := by
  unfold step
  cases cycle s <;> simp

/-- Everything a step request that answers can be: one in a terminal status, or one that runs an instruction. -/
theorem cycle_eq_next {s : State} {r : CycleReply} (h : cycle s = .next r) :
    (s.run = .halted ∧ r = ⟨s, .halted, none, none⟩) ∨
    (∃ c, s.run = .faulted c ∧ r = ⟨s, .faulted c, none, none⟩) ∨
    (∃ i, s.nextInstr = some i ∧ r = .ofRunningStep (effect i s.advancePc)) := by
  obtain ⟨ofHalted, ofFaulted⟩ := terminalCycleChangesNothing
  cases status : s.run with
  | halted =>
    rw [ofHalted s status] at h
    exact .inl ⟨rfl, by injection h with h; exact h.symm⟩
  | faulted c =>
    rw [ofFaulted s c status] at h
    exact .inr (.inl ⟨c, rfl, by injection h with h; exact h.symm⟩)
  | running =>
    obtain ⟨ended, -⟩ | ⟨i, runs, -⟩ := step_eq_next.1 ((step_eq_next_iff_cycle s r.state).2 ⟨r, h, rfl⟩)
    · exact absurd status ended
    · rw [cycle_of_nextInstr runs] at h
      exact .inr (.inr ⟨i, runs, by injection h with h; exact h.symm⟩)

/-! ### The reply of a running step, by the status it ends in -/

theorem CycleReply.ofRunningStep_running {t : State} (h : t.run = .running) :
    CycleReply.ofRunningStep t = ⟨t, .ran t.out, some t.out, none⟩ := by
  rw [CycleReply.ofRunningStep, h]

theorem CycleReply.ofRunningStep_halted {t : State} (h : t.run = .halted) :
    CycleReply.ofRunningStep t = ⟨t, .halted, none, none⟩ := by
  rw [CycleReply.ofRunningStep, h]

theorem CycleReply.ofRunningStep_faulted {t : State} {c : ExceptionCause} (h : t.run = .faulted c) :
    CycleReply.ofRunningStep t = ⟨t, .faulted c, none, some ⟨c, t.raisedAddress⟩⟩ := by
  rw [CycleReply.ofRunningStep, h]

/-- An instruction that ends faulted is a SUB, which leaves PC at the advance: the address raised is its own. -/
theorem raisedAddress_effect {s : State} {i : Instr} {c : ExceptionCause} (runs : s.nextInstr = some i)
    (h : (effect i s.advancePc).run = .faulted c) : (effect i s.advancePc).raisedAddress = s.pc.toNat := by
  obtain ⟨running, inRange, -⟩ := State.nextInstr_eq_some.1 runs
  obtain same | ⟨n, -, halts⟩ | ⟨n, rfl, -⟩ := effect_run_cases i s.advancePc
  · rw [same, State.advancePc_run, running] at h
    cases h
  · rw [halts] at h
    cases h
  · exact raisedAddress_of_pc inRange (s.advancePc.subUnder_pc _ n)

/-- Settles O21: a reply is one of a terminal status or of a running step (`cycle_eq_next`), and that of a running step
goes by the status it ends in. -/
theorem cycleReportsOutWhileRunning : Obligations.CycleReportsOutWhileRunning := by
  refine ⟨step_eq_next_iff_cycle, fun s r h => ?_⟩
  obtain ⟨status, rfl⟩ | ⟨c, status, rfl⟩ | ⟨i, runs, rfl⟩ := cycle_eq_next h
  · simp [status]
  · simp [status]
  · obtain ⟨running, -⟩ := State.nextInstr_eq_some.1 runs
    rw [CycleReply.ofRunningStep_state]
    refine ⟨fun ends => ?_, fun ends => ?_, fun c ends => ?_⟩
    · rw [CycleReply.ofRunningStep_running ends]
      exact ⟨rfl, rfl, rfl⟩
    · rw [CycleReply.ofRunningStep_halted ends]
      exact ⟨rfl, rfl, rfl⟩
    · rw [CycleReply.ofRunningStep_faulted ends, raisedAddress_effect runs ends, if_pos running]
      exact ⟨rfl, rfl, rfl⟩

/-- Settles O29: under `fault` the SUB ends faulted and its own address is raised; under the other policy it completes,
and a completing SUB leaves RUN and OUT alone. -/
theorem subOverflowStepAnswers : Obligations.SubOverflowStepAnswers := by
  intro s n runs exceeds
  obtain ⟨running, -⟩ := State.nextInstr_eq_some.1 runs
  refine ⟨_, cycle_of_nextInstr runs, ?_⟩
  by_cases faults : Config.subOverflowPolicy = .fault
  · have raises := effect_sub_raises (n := n) (s := s.advancePc) exceeds faults
    have ends : (effect (.sub n) s.advancePc).run = .faulted .subOverflow := by rw [raises]
    rw [if_pos faults, CycleReply.ofRunningStep_faulted ends, raisedAddress_effect runs ends]
    exact ⟨ends, rfl, rfl, rfl⟩
  · have completes := effect_sub_completes (n := n) (s := s.advancePc) (.inr (policy_eq_wrap_of_ne_fault faults))
    have ends : (effect (.sub n) s.advancePc).run = .running := by
      rw [completes]
      exact running
    have keepsOut : (effect (.sub n) s.advancePc).out = s.out := s.advancePc.subUnder_out _ n
    rw [if_neg faults, CycleReply.ofRunningStep_running ends, keepsOut]
    exact ⟨ends, rfl, rfl, rfl⟩

/-- Settles O11: row `1110` of the opcode map is OUT, whose effect writes OUT and leaves RUN running, so the reply of
the step carries the new OUT. -/
theorem outCopiesAccumulatorAndReports : Obligations.OutCopiesAccumulatorAndReports := by
  refine ⟨fun n s => ⟨decode_append 0b1110 n, exec_eq_effect (.out n) s⟩, fun n s runs => ?_⟩
  obtain ⟨running, -⟩ := State.nextInstr_eq_some.1 runs
  have ends : (effect (.out n) s.advancePc).run = .running := running
  refine ⟨_, cycle_of_nextInstr runs, ?_⟩
  rw [CycleReply.ofRunningStep_running ends]
  exact ⟨rfl, rfl, rfl⟩

end Sys2Proof.Machine
end

section
/-! The constructed state, and the invariant of every state of a run (10_state.md sections 3 to 5, 20_memory.md R35,
70_reset_and_hazards.md R110, R111). -/

namespace Sys2Proof.Machine

/-- Settles O31: construction writes nothing but MEM over the reset state, whose PC names cell 0. -/
theorem constructionZeroesRegisters : Obligations.ConstructionZeroesRegisters := by
  intro image
  refine ⟨State.construct_eq image, State.fetch_eq_some.2 ⟨Nat.zero_le 15, ?_⟩⟩
  exact (constructionLoadsImage image 0).symm

/-- Settles O33: the image has no more than the 16 cells, so it is laid out in canonical form, and every other clause is
about a field of the reset state. -/
theorem constructionMeetsInvariant : Obligations.ConstructionMeetsInvariant := fun image =>
  { pc_le := Nat.zero_le 15
    mem_wf := Memory.ofBytes_wfFrom 0 image.toList (by simp)
    ir_zero := rfl
    alu_zero := rfl
    faulted_policy := fun faulted => by cases faulted }

/-- Settles O32: the reset state is construction with the all-zero image. -/
theorem resetMeetsInvariant : Obligations.ResetMeetsInvariant := by
  have meets := constructionMeetsInvariant (Vector.replicate 16 0)
  rwa [State.construct_zero] at meets

/-- An instruction keeps the invariant from a running state: only a SUB that raises ends faulted, and it raises under
the policy `fault`. -/
theorem effect_inv {i : Instr} {s : State} (inv : s.Inv) (running : s.run = .running) : (effect i s).Inv where
  pc_le := effect_pc_le inv.pc_le
  mem_wf := effect_mem_wf inv.mem_wf
  ir_zero := (effect_ir i s).trans inv.ir_zero
  alu_zero := (effect_alu i s).trans inv.alu_zero
  faulted_policy faulted := by
    obtain same | ⟨n, -, halts⟩ | ⟨n, -, -, faults, -⟩ := effect_run_cases i s
    · rw [same, running] at faulted
      cases faulted
    · rw [halts] at faulted
      cases faulted
    · exact faults

theorem State.Inv.advancePc {s : State} (inv : s.Inv) : s.advancePc.Inv :=
  { inv with pc_le := nextPc_le s.pc }

/-- Settles O34: a step stays in a terminal status or runs an instruction on the advanced state, and both the advance
and the instruction keep the invariant. -/
theorem stepKeepsInvariant : Obligations.StepKeepsInvariant := by
  intro s t inv h
  obtain ⟨-, rfl⟩ | ⟨i, runs, rfl⟩ := step_eq_next.1 h
  · exact inv
  · obtain ⟨running, -⟩ := State.nextInstr_eq_some.1 runs
    exact effect_inv inv.advancePc running

/-- With PC in range a step answers a state. -/
theorem step_answers {s : State} (inRange : s.pc.toNat ≤ 15) : ∃ t, step s = .next t := by
  by_cases running : s.run = .running
  · exact ⟨_, step_of_nextInstr (State.nextInstr_eq_some.2 ⟨running, inRange, rfl⟩)⟩
  · exact ⟨s, step_of_terminal running⟩

/-- Settles O35: by induction on the number of steps, one step answers (`step_answers`) and keeps the invariant. -/
theorem everyRunGoesOn : Obligations.EveryRunGoesOn := by
  intro s inv k
  induction k with
  | zero => exact ⟨s, runsTo_zero.2 rfl, inv⟩
  | succ k ih =>
    obtain ⟨u, run, invU⟩ := ih
    obtain ⟨t, last⟩ := step_answers invU.pc_le
    exact ⟨t, runsTo_last.2 ⟨u, run, last⟩, stepKeepsInvariant u t invU last⟩

end Sys2Proof.Machine
end

section
/-! Runs: an ended run, and what holds along a run by induction on its steps. -/

namespace Sys2Proof.Machine

/-! ### Ended runs (40_cycle_engine.md R69, R70) -/

theorem State.ended_iff {s : State} : s.ended = true ↔ s.run ≠ .running := by
  simp [State.ended]

/-- Settles O23: by induction on the number of steps, the first of which answers the state itself. -/
theorem terminalStatusIsNeverLeft : Obligations.TerminalStatusIsNeverLeft := by
  intro k s ended
  induction k with
  | zero => exact runsTo_zero.2 rfl
  | succ k ih => exact runsTo_succ.2 ⟨s, step_of_terminal (State.ended_iff.1 ended), ih⟩

/-- Settles O24: the first step halts the advanced state, and no later step leaves it. -/
theorem hltEndsTheRun : Obligations.HltEndsTheRun := by
  intro k n s runs
  obtain ⟨-, inRange, -⟩ := State.nextInstr_eq_some.1 runs
  rw [← nextPc_eq_ofNat_mod inRange]
  exact runsTo_succ.2 ⟨_, step_of_nextInstr runs, terminalStatusIsNeverLeft k _ rfl⟩

/-! ### Induction along a run -/

/-- What holds at the start of a run, and each of its steps carries on, holds at its end. -/
theorem RunsTo.induction {P : Nat → State → Prop} {k : Nat} {s t : State} (run : RunsTo k s t) (start : P 0 s)
    (carries : ∀ j < k, ∀ u v, RunsTo j s u → step u = .next v → P j u → P (j + 1) v) : P k t := by
  induction k generalizing t with
  | zero =>
    obtain rfl := runsTo_zero.1 run
    exact start
  | succ k ih =>
    obtain ⟨u, before, last⟩ := runsTo_last.1 run
    have holds := ih before fun j hj => carries j (by omega)
    exact carries k (Nat.lt_succ_self k) u t before last holds

/-- Settles O41: each step takes no jump, so by `stepSetsPc` it adds 1 mod 16. -/
theorem pcCountsStepsModSixteen : Obligations.PcCountsStepsModSixteen := by
  intro k s t inRange run noJump
  refine RunsTo.induction (P := fun j u => u.pc.toNat = (s.pc.toNat + j) % 16) run (by omega) ?_
  intro j hj u v before h counted
  obtain ⟨running, noTarget⟩ := noJump j hj u before
  obtain ⟨-, advances⟩ := stepSetsPc u v running h
  rw [advances noTarget, counted]
  omega

/-- Settles O43: the first failed state of a run would follow a SUB whose sum exceeds 255 (`step_failed`). -/
theorem runWithoutSubOverflowIsSafe : Obligations.RunWithoutSubOverflowIsSafe := by
  intro s unfailed small k t run
  refine RunsTo.induction (P := fun _ u => u.failed = false) run unfailed ?_
  intro j _ u v before h unfailedU
  by_contra fails
  obtain ⟨-, n, runs, exceeds⟩ := step_failed h unfailedU (Bool.eq_true_of_not_eq_false fails)
  exact absurd (small j u n before runs) (by omega)

/-! ### Reports (40_cycle_engine.md R68) -/

/-- A report is of the value OUT has after the step. -/
theorem report_eq_out {s : State} {r : CycleReply} {v : Byte} (h : cycle s = .next r) (reports : r.report = some v) :
    v = r.state.out := by
  obtain ⟨ofRunning, ofHalted, ofFaulted⟩ := cycleReportsOutWhileRunning.2 s r h
  cases status : r.state.run with
  | running =>
    obtain ⟨-, report, -⟩ := ofRunning status
    exact Option.some.inj (reports.symm.trans report)
  | halted =>
    obtain ⟨-, report, -⟩ := ofHalted status
    cases reports.symm.trans report
  | faulted c =>
    obtain ⟨-, report, -⟩ := ofFaulted c status
    cases reports.symm.trans report

/-- A step that runs no OUT keeps OUT. -/
theorem step_keeps_out {s t : State} (h : step s = .next t) (noOut : ∀ n, s.nextInstr ≠ some (.out n)) :
    t.out = s.out := by
  by_contra changed
  obtain ⟨n, runs⟩ := step_out_ne h changed
  exact noOut n runs

/-- Settles O42: no step of the run, nor the one that reports, runs an OUT, so what is reported is OUT of the start. -/
theorem reportsRepeatUntilNextOut : Obligations.ReportsRepeatUntilNextOut := by
  intro k s t r v noOut run h reports
  have kept : t.out = s.out :=
    RunsTo.induction (P := fun _ u => u.out = s.out) run rfl fun j hj u v before h same =>
      (step_keeps_out h (noOut j hj.le u before)).trans same
  have last : step t = .next r.state := (step_eq_next_iff_cycle t r.state).2 ⟨r, h, rfl⟩
  calc v = r.state.out := report_eq_out h reports
    _ = t.out := step_keeps_out last (noOut k le_rfl t run)
    _ = s.out := kept

end Sys2Proof.Machine
end

section
/-! The sticky flags over whole runs: each is a record of what the run so far has added (10_state.md section 6). -/

namespace Sys2Proof.Machine

/-- A flag that each step leaves or sets is true exactly if it was at the start or some step of the run set it. -/
theorem RunsTo.sticky_iff {flag sets : State → Prop} {k : Nat} {s t : State} (run : RunsTo k s t)
    (stepwise : ∀ {u v}, step u = .next v → (flag v ↔ flag u ∨ sets u)) :
    flag t ↔ flag s ∨ ∃ j u, j < k ∧ RunsTo j s u ∧ sets u := by
  refine RunsTo.induction (P := fun k t => flag t ↔ flag s ∨ ∃ j u, j < k ∧ RunsTo j s u ∧ sets u) run (by simp) ?_
  intro k _ u v before h record
  rw [stepwise h, record, or_assoc]
  refine or_congr_right ⟨?_, ?_⟩
  · rintro (⟨j, w, hj, reached, set⟩ | set)
    · exact ⟨j, w, by omega, reached, set⟩
    · exact ⟨k, u, by omega, before, set⟩
  · rintro ⟨j, w, hj, reached, set⟩
    obtain earlier | rfl := Nat.lt_succ_iff_lt_or_eq.1 hj
    · exact .inl ⟨j, w, earlier, reached, set⟩
    · obtain rfl := reached.unique before
      exact .inr set

/-- Settles O37: what each step does to CF (`step_cf`), collected over the run. -/
theorem carryRecordsSomeAdd : Obligations.CarryRecordsSomeAdd := by
  intro k s t run
  have record := run.sticky_iff (flag := fun u => u.cf = true) step_cf
  simpa only [exists_and_left] using record

/-- Settles O38: what each step does to ZF (`step_zf`), collected over the run. -/
theorem zeroRecordsSomeZeroResult : Obligations.ZeroRecordsSomeZeroResult := by
  intro k s t run
  have record := run.sticky_iff (flag := fun u => u.zf = true) step_zf
  simpa only [exists_and_left] using record

/-- Settles O36: a flag true at the start is on the record at the end. -/
theorem flagsAreSticky : Obligations.FlagsAreSticky := fun k s t run =>
  ⟨fun carry => (carryRecordsSomeAdd k s t run).2 (.inl carry),
   fun zero => (zeroRecordsSomeZeroResult k s t run).2 (.inl zero)⟩

end Sys2Proof.Machine
end

section
/-! What no run reads: IR, the ALU latch, OUT and the old value of B (10_state.md R15, R18 to R20). Two runs from states
that differ only there are compared step by step. -/

namespace Sys2Proof.Machine

/-! ### IR and the ALU latch -/

/-- The state with other values in the two latches that nothing is said to read. -/
def State.withLatches (s : State) (x y : Byte) : State := { s with ir := x, alu := y }

theorem effect_withLatches (i : Instr) (s : State) (x y : Byte) :
    effect i (s.withLatches x y) = (effect i s).withLatches x y := by
  cases i with
  | sub n =>
    obtain ⟨exceeds, faults⟩ | completes := sub_raises_or_completes n s
    · rw [effect_sub_raises exceeds faults, effect_sub_raises (s := s.withLatches x y) exceeds faults]
      rfl
    · rw [effect_sub_completes completes, effect_sub_completes (s := s.withLatches x y) completes]
      rfl
  | _ => rfl

theorem step_withLatches {s t : State} (h : step s = .next t) (x y : Byte) :
    step (s.withLatches x y) = .next (t.withLatches x y) := by
  obtain ⟨ended, rfl⟩ | ⟨i, runs, rfl⟩ := step_eq_next.1 h
  · exact step_of_terminal (s := t.withLatches x y) ended
  · rw [← effect_withLatches]
    exact step_of_nextInstr (s := s.withLatches x y) runs

theorem step_keeps_latches {s t : State} (h : step s = .next t) : t.ir = s.ir ∧ t.alu = s.alu := by
  obtain ⟨-, rfl⟩ | ⟨i, -, rfl⟩ := step_eq_next.1 h
  · exact ⟨rfl, rfl⟩
  · exact ⟨effect_ir i s.advancePc, effect_alu i s.advancePc⟩

/-- Settles O39: each step keeps the latches, and answers alike with other values in them. -/
theorem irAndAluAreDead : Obligations.IrAndAluAreDead := by
  intro k s t run
  obtain ⟨irKept, aluKept⟩ : t.ir = s.ir ∧ t.alu = s.alu := by
    refine RunsTo.induction (P := fun _ u => u.ir = s.ir ∧ u.alu = s.alu) run ⟨rfl, rfl⟩ ?_
    rintro j - u v - h ⟨irSame, aluSame⟩
    obtain ⟨irStep, aluStep⟩ := step_keeps_latches h
    exact ⟨irStep.trans irSame, aluStep.trans aluSame⟩
  refine ⟨irKept, aluKept, fun x y => ?_⟩
  refine RunsTo.induction (P := fun j u => RunsTo j (s.withLatches x y) (u.withLatches x y)) run (runsTo_zero.2 rfl) ?_
  intro j _ u v _ h same
  exact runsTo_last.2 ⟨u.withLatches x y, same, step_withLatches h x y⟩

/-! ### OUT and the old value of B -/

/-- The state with other values in B and OUT. -/
def State.withBOut (s : State) (x y : Byte) : State := { s with b := x, out := y }

/-- Whether an instruction loads B. -/
def loadsB : Instr → Bool
  | .add _ => true
  | .sub _ => true
  | _ => false

/-- Whether an instruction writes OUT. -/
def writesOut : Instr → Bool
  | .out _ => true
  | _ => false

theorem effect_b_of_not_loadsB {i : Instr} (s : State) (h : loadsB i = false) : (effect i s).b = s.b := by
  by_contra changed
  obtain ⟨n, rfl | rfl⟩ := effect_b_ne changed <;> cases h

theorem effect_out_of_not_writesOut {i : Instr} (s : State) (h : writesOut i = false) :
    (effect i s).out = s.out := by
  by_contra changed
  obtain ⟨n, rfl⟩ := effect_out_ne changed
  cases h

theorem effect_withBOut (i : Instr) (s : State) (x y : Byte) :
    effect i (s.withBOut x y) = (effect i s).withBOut
      (if loadsB i then (effect i s).b else x) (if writesOut i then (effect i s).out else y) := by
  cases i with
  | sub n =>
    obtain ⟨exceeds, faults⟩ | completes := sub_raises_or_completes n s
    · rw [effect_sub_raises exceeds faults, effect_sub_raises (s := s.withBOut x y) exceeds faults]
      rfl
    · rw [effect_sub_completes completes, effect_sub_completes (s := s.withBOut x y) completes]
      rfl
  | _ => rfl

/-- From `s` to `t` it is settled, for B and for OUT, whether it is overwritten: `go` answers `t` whatever B and OUT
hold, with each as in `t` if it is overwritten and as it was if not. -/
def Overwrites (go : State → State → Prop) (s t : State) (loaded written : Bool) : Prop :=
  ∀ x y : Byte, go (s.withBOut x y) (t.withBOut (if loaded then t.b else x) (if written then t.out else y))

theorem step_overwrites {s t : State} (h : step s = .next t) :
    ∃ loaded written : Bool, Overwrites (step · = .next ·) s t loaded written ∧
      (loaded = false → t.b = s.b) ∧ (written = false → t.out = s.out) := by
  obtain ⟨ended, rfl⟩ | ⟨i, runs, rfl⟩ := step_eq_next.1 h
  · exact ⟨false, false, fun x y => step_of_terminal (s := t.withBOut x y) ended, fun _ => rfl, fun _ => rfl⟩
  · refine ⟨loadsB i, writesOut i, fun x y => ?_, effect_b_of_not_loadsB _, effect_out_of_not_writesOut _⟩
    rw [← effect_withBOut]
    exact step_of_nextInstr (s := s.withBOut x y) runs

/-- Two moves after each other overwrite what one of them does; what the second leaves is the first one's value. -/
theorem overwritten_twice {first second : Bool} {new mid old : Byte} (left : second = false → new = mid) :
    (if second then new else if first then mid else old) = if second || first then new else old := by
  cases second with
  | true => rfl
  | false => rw [left rfl]; rfl

/-- Settles O40: by induction along the run; a register is overwritten by the run if it is by one of its steps. -/
theorem outAndOldBAreNeverRead : Obligations.OutAndOldBAreNeverRead := by
  intro k s t run
  refine RunsTo.induction (P := fun j u => ∃ loaded written, Overwrites (RunsTo j) s u loaded written) run
    ⟨false, false, fun x y => runsTo_zero.2 rfl⟩ ?_
  rintro j - u v - h ⟨loaded, written, before⟩
  obtain ⟨loads, writes, last, leavesB, leavesOut⟩ := step_overwrites h
  refine ⟨loads || loaded, writes || written, fun x y => ?_⟩
  rw [← overwritten_twice leavesB, ← overwritten_twice leavesOut]
  exact runsTo_last.2 ⟨_, before x y, last _ _⟩

end Sys2Proof.Machine
end
